-- ==== Sys2Proof/Word.lean ====
section
/-! DEFINITION. The word types of the CORE (R7, R9, R70): 64-bit register values, 8-bit segment bytes,
32-bit instruction words, and the 4-bit and 16-bit fields of an instruction word. -/

namespace Sys2Proof

/-- A `u64`: the value of a register, of the flags, of the pc, or a data address (R7, R9). -/
abbrev Word := BitVec 64

/-- One byte of the Memory Segment (R45). -/
abbrev Byte := BitVec 8

/-- One 32-bit Instruction Word (R70). -/
abbrev InstrWord := BitVec 32

/-- A 4-bit field of an instruction word (R70). -/
abbrev Nibble := BitVec 4

/-- The 16-bit immediate field `v` (R70). -/
abbrev Imm16 := BitVec 16

/-- `ONES`, 2^64 - 1 (R9). -/
def ones64 : Word := BitVec.allOnes 64

end Sys2Proof
end

