-- ==== Sys2Proof/Config.lean ====
section
/-! DEFINITION. What a launch or an implementation fixes (R6), and the free value the spec leaves open. -/

namespace Sys2Proof

/-- `RESERVED_REG_POLICY` (R6, R26): how registers 12 and 13 behave in a launch. -/
inductive ReservedPolicy where
  /-- any register-role use of register 12 or 13 raises IllegalOp -/
  | strict
  /-- registers 12 and 13 are storage, like registers 1 to 7 -/
  | permissive
deriving DecidableEq, Repr, Inhabited

namespace Config

/-- The default `SEG_SIZE` in bytes (R6, R67). -/
def defaultSegSize : Nat := 65536

/-- The largest `SEG_SIZE` a launch may ask for (R48, R67). -/
def maxSegSize : Nat := 2 ^ 64

/-- The default `RESERVED_REG_POLICY` (R6, R26). -/
def defaultPolicy : ReservedPolicy := .strict

/-- `vdraw` (R6, R13, R109): the `n`-th free draw of flags bit 0 in a run. It has no body, so nothing
can be proved of its value; assumption log 3. -/
opaque vdraw (n : Nat) : Bool

end Config
end Sys2Proof
end

