-- ==== Sys2Proof/Syntax.lean ====
section
/-! DEFINITION. The instructions of the CORE as syntax (R73, R83): one constructor per row of
spec/opcode_table.json, over the sixteen registers by their names (R20) and the register-or-immediate
operand (R14, R74). Fields that an instruction ignores (R88) are no part of its syntax. Codes that an
instruction's own rule checks (width, condition, nibble range) are kept as the 4-bit numbers they are,
because an illegal code is still that instruction (R86) and its rule raises the fault. -/

namespace Sys2Proof

/-- The sixteen register indices by their names, in index order (R20). -/
inductive Reg where
  | nul | r1 | r2 | r3 | r4 | r5 | r6 | r7
  | base | stack | zero | ones | r12 | r13 | flags | pc
deriving DecidableEq, Repr, Inhabited

/-- An operand whose 4-bit selector field names a register, or holds 0 and selects the 16-bit
immediate `v` (R14, R74). -/
inductive Operand where
  | reg (r : Reg)
  | imm (v : Imm16)
deriving DecidableEq, Repr, Inhabited

/-- The fifteen instructions (R83). -/
inductive Instr where
  /-- `add d, x, y` (R100) -/
  | add (d x : Reg) (y : Operand)
  /-- `sub d, x, y` (R101) -/
  | sub (d x : Reg) (y : Operand)
  /-- `mul d, x, y` (R102) -/
  | mul (d x : Reg) (y : Operand)
  /-- `div d, x, y` (R103) -/
  | div (d x : Reg) (y : Operand)
  /-- `and d, x, y` (R104) -/
  | and (d x : Reg) (y : Operand)
  /-- `or d, x, y` (R105) -/
  | or (d x : Reg) (y : Operand)
  /-- `xor d, x, y` (R106) -/
  | xor (d x : Reg) (y : Operand)
  /-- `load.W x, [y]` with the width code of field `d` (R120) -/
  | load (width : Nibble) (x : Reg) (y : Operand)
  /-- `store.W x, [y]` with the width code of field `d` (R121) -/
  | store (width : Nibble) (x : Reg) (y : Operand)
  /-- `compare d, x, y` (R130) -/
  | compare (d x : Reg) (y : Operand)
  /-- `branch.C y` with the condition code of field `d`; an immediate is a relative offset (R136) -/
  | branch (cond : Nibble) (y : Operand)
  /-- `move d, x` with the shift selector of field `y` (R140) -/
  | move (d : Reg) (x : Operand) (shift : Nibble)
  /-- `assign d` from nibble `x` to nibble `y` with the value `v` (R144) -/
  | assign (d : Reg) (x y : Nibble) (v : Imm16)
  /-- `interrupt` with the vector number of field `d` (R150) -/
  | interrupt (n : Nibble)
  /-- `extended` with the code `x ++ y` and the parameters `d` and `v` (R152) -/
  | extended (code : BitVec 8) (d : Nibble) (v : Imm16)
deriving DecidableEq, Repr, Inhabited

end Sys2Proof
end

