-- ==== Sys2Proof/Machine/State.lean ====
section
/-! DEFINITION. The Machine State (R47) and, beside it, the launch parameters the step relation takes as
arguments (R6, R47, R48), all as plain data; what the machine can raise (R160); how a step can end. -/

namespace Sys2Proof.Machine

/-- The storage registers of the Register File (R30, R47): `GR[1..9]`, and `GR[12]`, `GR[13]`, which are
read and written only under `permissive`. Indices 0, 10 and 11 have no storage; the flags and the pc are
state elements of their own. -/
structure GprFile where
  r1 : Word
  r2 : Word
  r3 : Word
  r4 : Word
  r5 : Word
  r6 : Word
  r7 : Word
  base : Word
  stack : Word
  r12 : Word
  r13 : Word
deriving DecidableEq, Repr, Inhabited

/-- The Memory Segment's bytes as (offset, byte) pairs: offsets strictly rising, no byte 0, since an
unlisted offset reads 0 (R45, R60). `Memory.wf` in `Machine/Ops.lean` says the form holds. -/
abbrev Memory := List Host.Cell

/-- The termination state `stop` (R40). -/
inductive Stop where
  /-- `RUNNING`: the Execution Loop steps -/
  | running
  /-- `HALT`: `interrupt #0` was executed -/
  | halt
  /-- `FAULT_SEGV`: a Segmentation Fault with an unset vector -/
  | faultSegv
  /-- `FAULT_ILLEGAL`: an Illegal Operation with an unset vector -/
  | faultIllegal
deriving DecidableEq, Repr, Inhabited

/-- The two fault kinds of the architecture (R160). Raising one takes a trap, which is a next state
(R166, R167). -/
inductive Trap where
  /-- Segmentation Fault (R161) -/
  | segFault
  /-- Illegal Operation (R162) -/
  | illegalOp
deriving DecidableEq, Repr, Inhabited

/-- The MachineState record of R47, which a handler takes and returns (R152, R154). `SEG_SIZE` is no
element of it, as R47 has it. DESIGN CHOICE: a handler is supplied for one launch, whose `SEG_SIZE` and
policy are fixed, so what it answers may depend on both though it is not handed them (assumption
log 14). -/
structure MachineState where
  gr : GprFile
  flags : Word
  pc : Word
  seg : Memory
  ivt : Vector Word 16
  stop : Stop
deriving DecidableEq, Repr, Inhabited

/-- What a handler answers: a fault, or a next MachineState (R152, R154). -/
inductive HandlerOutcome where
  | fault (k : Trap)
  | next (m : MachineState)
deriving DecidableEq, Repr, Inhabited

/-- One value of a handler: what it answers on `d`, `v` and a MachineState. -/
structure HandlerRow where
  d : Nibble
  v : Imm16
  machine : MachineState
  outcome : HandlerOutcome
deriving DecidableEq, Repr, Inhabited

/-- An extended handler (R154) as the table of its values; `Handler.answer` in `Machine/Handler.lean` is
the function it stands for. Where it lists no value it answers as the no-op handler does, so the empty
table is `h_nop` (R153). Every total deterministic function of R154 is such a table, because the
MachineStates of a launch are finitely many (assumption log 5). -/
abbrev Handler := List HandlerRow

/-- The Extended Dispatch Table `EXT` (R44) as the handlers registered for extended opcodes (R155). An
opcode that is left out has `h_nop` (R153), and of two handlers listed for one opcode the first counts:
`ExtTable.handler` in `Machine/Handler.lean`. -/
abbrev ExtTable := List (BitVec 8 × Handler)

/-- The whole machine. The first six fields are the record of R47, the next four are launch parameters,
which no step changes, and `draws` is the model's own. -/
structure State where
  /-- the storage registers (R30) -/
  gr : GprFile
  /-- the flags `F`, register 14 (R38) -/
  flags : Word
  /-- the program counter, register 15 (R34) -/
  pc : Word
  /-- the Memory Segment (R45) -/
  seg : Memory
  /-- the Interrupt Vector Table (R41) -/
  ivt : Vector Word 16
  /-- the termination state (R40) -/
  stop : Stop
  /-- the program store `PROG`; its length is `N` (R46) -/
  prog : List InstrWord
  /-- `SEG_SIZE`, the segment's size in bytes (R67) -/
  segSize : Nat
  /-- `RESERVED_REG_POLICY` (R26) -/
  policy : ReservedPolicy
  /-- the Extended Dispatch Table `EXT` (R44, R152) -/
  ext : ExtTable
  /-- the MODEL's own counter, no state of the CORE: how many free draws of flags bit 0 were taken
  (R109; assumption log 3) -/
  draws : Nat
deriving DecidableEq, Repr

/-- Why a step ends with no next state and no refusal. The architecture's own faults are traps, and a
trap is a next state. -/
inductive Fault where
  /-- raised by `step` on a machine that has stopped (`stop` is not `RUNNING`): no step exists and no
  state element changes (R193, R198). Safe: the CORE takes no step there either. -/
  | machineStopped (why : Stop)
deriving DecidableEq, Repr

/-- Why the model gives no outcome. -/
inductive Refusal where
  /-- raised by an arm of `exec` for an instruction without a meaning; no arm does. Safe. -/
  | notModelled (mnemonic : String)
  /-- raised by `launch` when a supplied handler breaks the handler contract (R48, R154, I20), before the
  first step; and by `extended` when the handler of its code answers a state that breaks it, which
  happens in no machine that a launch created. Safe: such a launch is outside the spec, which has the
  model refuse it. -/
  | handlerBreaksContract (code : BitVec 8)
  /-- raised by `launch` when `SEG_SIZE` is over 2^64 (R48, R67, I20). Safe: the spec has the model
  refuse such a launch before its first step. -/
  | segSizeOutOfRange (size : Nat)
deriving DecidableEq, Repr

/-- How a step, or an instruction, ends. -/
abbrev Result := Host.Outcome State Fault Refusal

/-- The machine right after creation with the default launch inputs (R190, R6): an empty program, every
vector entry 0, `SEG_SIZE` 65536, the strict policy, an empty Extended Dispatch Table. The values of the
launch inputs and of `draws` are named in assumption logs 1 and 3. -/
def State.reset : State where
  gr := { r1 := 0, r2 := 0, r3 := 0, r4 := 0, r5 := 0, r6 := 0, r7 := 0, base := 0, stack := 0
          r12 := 0, r13 := 0 }
  flags := 0
  pc := 0
  seg := []
  ivt := Vector.replicate 16 0
  stop := .running
  prog := []
  segSize := Config.defaultSegSize
  policy := Config.defaultPolicy
  ext := []
  draws := 0

end Sys2Proof.Machine
end

