-- ==== Sys2Proof/Machine/Flags.lean ====
section
/-! DEFINITION. The flags register `F` (R38, R39): its three bits, how one is written with every other
bit kept, the flag each instruction computes, and the branch conditions that read them (R78). -/

namespace Sys2Proof.Machine

/-- `F.V`, bit 0: arithmetic overflow (R38). -/
def flagV (f : Word) : Bool := f.getLsbD 0
/-- `F.Z`, bit 1: the last compare found its operands equal (R38). -/
def flagZ (f : Word) : Bool := f.getLsbD 1
/-- `F.N`, bit 2: the last compare found left less than right, signed (R38, R131). -/
def flagN (f : Word) : Bool := f.getLsbD 2

/-- `f` with bit `i` set to `b` and every other bit kept. -/
def withFlag (f : Word) (i : Nat) (b : Bool) : Word :=
  if b then f ||| (1#64 <<< i) else f &&& ~~~(1#64 <<< i)

/-- `F.V <- b` (R39). -/
def withV (f : Word) (b : Bool) : Word := withFlag f 0 b
/-- `F.Z <- z` and `F.N <- n` (R39, R130). -/
def withZN (f : Word) (z n : Bool) : Word := withFlag (withFlag f 1 z) 2 n

/-- V of add: the exact unsigned sum passes 2^64 - 1 (R100). -/
def addWraps (lhs rhs : Word) : Bool := 2 ^ 64 ≤ lhs.toNat + rhs.toNat
/-- V of sub: the borrow, left below right unsigned (R101). -/
def subBorrows (lhs rhs : Word) : Bool := lhs.toNat < rhs.toNat
/-- Z of compare (R130). -/
def cmpEqual (lhs rhs : Word) : Bool := lhs = rhs
/-- N of compare: left below right as signed 64-bit numbers (R130, R131). -/
def cmpLess (lhs rhs : Word) : Bool := lhs.toInt < rhs.toInt

/-- The eight branch conditions (R78). -/
inductive Cond where
  | al | z | nz | v | nv | n | nn | gt
deriving DecidableEq, Repr

/-- The condition of a condition code; none for the undefined codes 8 to 15 (R78). -/
def condOf (c : Nibble) : Option Cond :=
  match c.toNat with
  | 0 => some .al
  | 1 => some .z
  | 2 => some .nz
  | 3 => some .v
  | 4 => some .nv
  | 5 => some .n
  | 6 => some .nn
  | 7 => some .gt
  | _ => none

/-- `cond(c)` on the flags (R78, R135). -/
def condHolds (c : Cond) (f : Word) : Bool :=
  match c with
  | .al => true
  | .z => flagZ f
  | .nz => !flagZ f
  | .v => flagV f
  | .nv => !flagV f
  | .n => flagN f
  | .nn => !flagN f
  | .gt => !flagZ f && !flagN f

end Sys2Proof.Machine
end

