-- ==== Sys2Proof/Machine/Ops.lean ====
section
/-! DEFINITION. The named operations over memory, registers, flags and the pc that every meaning is made
of, the reserved-register check (R33), and TAKING A TRAP (R164 to R167) as one operation. There is no
return from a trap to model: the CORE has no such instruction and a trap saves nothing (R170, R171). -/

namespace Sys2Proof.Machine

/-! ## Memory -/

/-- The canonical form: offsets strictly rising, no listed byte 0. -/
abbrev Memory.wf (m : Memory) : Prop :=
  m.Pairwise (fun p q => p.1 < q.1) ∧ ∀ c ∈ m, c.2 ≠ 0

/-- What an unlisted offset reads as: 0 (R45, R60). -/
def Memory.unlisted : Byte := 0

/-- The byte at an offset. -/
def Memory.read : Memory → Nat → Byte
  | [], _ => Memory.unlisted
  | (k, c) :: m, a => if k = a then c else Memory.read m a

/-- A listed byte put in its place by offset. -/
def Memory.insert : Memory → Nat → Byte → Memory
  | [], a, b => [(a, b)]
  | (k, c) :: m, a, b => if a < k then (a, b) :: (k, c) :: m else (k, c) :: Memory.insert m a b

/-- One byte written: any entry of the offset goes, and a byte other than the unlisted one is listed. -/
def Memory.write (m : Memory) (a : Nat) (b : Byte) : Memory :=
  let rest : Memory := m.filter (fun c => c.1 ≠ a)
  if b = Memory.unlisted then rest else Memory.insert rest a b

/-- `MemRead(a, n)`: `n` bytes from offset `a`, little-endian, zero-extended (R12, R55). -/
def Memory.readBytes (m : Memory) (a : Nat) : Nat → Word
  | 0 => 0
  | n + 1 => (Memory.readBytes m (a + 1) n <<< 8) ||| (m.read a).setWidth 64

/-- `MemWrite(a, n, v)`: the low `n` bytes of `v` from offset `a`, little-endian (R12, R55). -/
def Memory.writeBytes (m : Memory) (a : Nat) : Nat → Word → Memory
  | 0, _ => m
  | n + 1, v => Memory.writeBytes (m.write a (v.setWidth 8)) (a + 1) n (v >>> 8)

/-! ## Registers -/

/-- Whether an index is one of the reserved registers 12 and 13 (R26). -/
def isReserved (r : Reg) : Bool := r = .r12 || r = .r13

/-- `x[i]` (R31): the constants, the storage registers, the flags, and the pc of the executing
instruction (R35). -/
def State.readReg (s : State) : Reg → Word
  | .nul => 0
  | .r1 => s.gr.r1
  | .r2 => s.gr.r2
  | .r3 => s.gr.r3
  | .r4 => s.gr.r4
  | .r5 => s.gr.r5
  | .r6 => s.gr.r6
  | .r7 => s.gr.r7
  | .base => s.gr.base
  | .stack => s.gr.stack
  | .zero => 0
  | .ones => ones64
  | .r12 => s.gr.r12
  | .r13 => s.gr.r13
  | .flags => s.flags
  | .pc => s.pc

/-- The storage registers after `x[i] <- v` (R32): a write to a constant, to the flags or to the pc is
discarded. -/
def writeGpr (g : GprFile) (v : Word) : Reg → GprFile
  | .r1 => { g with r1 := v }
  | .r2 => { g with r2 := v }
  | .r3 => { g with r3 := v }
  | .r4 => { g with r4 := v }
  | .r5 => { g with r5 := v }
  | .r6 => { g with r6 := v }
  | .r7 => { g with r7 := v }
  | .base => { g with base := v }
  | .stack => { g with stack := v }
  | .r12 => { g with r12 := v }
  | .r13 => { g with r13 := v }
  | .nul | .zero | .ones | .flags | .pc => g

/-- `x[i] <- v` (R32). -/
def State.writeReg (s : State) (r : Reg) (v : Word) : State := { s with gr := writeGpr s.gr v r }

/-! ## Flags, pc, segment, vectors -/

/-- `F <- f`, used only by the flag writers of R39. -/
def State.setFlags (s : State) (f : Word) : State := { s with flags := f }

/-- `F.V <- b` (R39). -/
def State.setV (s : State) (b : Bool) : State := s.setFlags (withV s.flags b)

/-- `F.V <- vdraw` (R109): one free draw, and the model's counter moves on so that the next draw is
another one. -/
def State.drawV (s : State) : State :=
  { s with flags := withV s.flags (Config.vdraw s.draws), draws := s.draws + 1 }

/-- `pc <- t` (R11). -/
def State.setPc (s : State) (t : Word) : State := { s with pc := t }

/-- `advance` (R13, R194): `pc <- pc + 1`, modulo 2^64. -/
def State.advance (s : State) : State := s.setPc (s.pc + 1)

/-- The bounds check of R53, in exact integers. -/
def State.inBounds (s : State) (a : Word) (w : Nat) : Bool := a.toNat + w ≤ s.segSize

/-- The segment with `w` bytes of `v` written at `a` (R12). -/
def State.storeBytes (s : State) (a : Word) (w : Nat) (v : Word) : State :=
  { s with seg := s.seg.writeBytes a.toNat w v }

/-- `MemRead(a, w)` on the segment (R12). -/
def State.loadBytes (s : State) (a : Word) (w : Nat) : Word := s.seg.readBytes a.toNat w

/-- `IVT[n]` (R41). -/
def State.vector (s : State) (n : Nibble) : Word := s.ivt.get n.toFin

/-- `halt` (R13): `stop <- HALT`, and nothing else (R150). -/
def State.halt (s : State) : State := { s with stop := .halt }

/-! ## Traps -/

/-- The vector number of a fault (R164). -/
def trapVector : Trap → Nibble
  | .segFault => 1
  | .illegalOp => 2

/-- The stop reason of an unhandled fault (R163, R167). -/
def trapStop : Trap → Stop
  | .segFault => .faultSegv
  | .illegalOp => .faultIllegal

/-- Trap delivery on the state from before the faulting instruction (R165): through the vector table
where the entry is set (R166), a recorded stop where it is 0 (R167). Nothing is saved (R170). -/
def State.takeTrap (s : State) (k : Trap) : State :=
  if s.vector (trapVector k) = 0 then { s with stop := trapStop k }
  else s.setPc (s.vector (trapVector k))

/-- How an instruction ends: with its own effect, or with the trap it raised taken on the state from
before it (R13, R193). -/
def finish (s : State) : Except Trap State → Result
  | .ok t => .next t
  | .error k => .next (s.takeTrap k)

/-- The reserved-register check of R33 and R84, before any other effect: under `strict`, a
register-role field that holds 12 or 13 raises IllegalOp. -/
def checkRoles (s : State) (roles : List Reg) (body : Except Trap State) : Except Trap State :=
  if s.policy = .strict ∧ roles.any isReserved then .error .illegalOp else body

end Sys2Proof.Machine
end

