-- ==== Sys2Proof/Machine/Operands.lean ====
section
/-! DEFINITION. The operand forms (R14, R74, R76 to R80): the register-or-immediate operand, the width
code, the branch target, the shift of move, and the bit range of assign. -/

namespace Sys2Proof.Machine

/-- The register-role use of a selectable operand: none where it is the immediate (R75). -/
def operandRoles : Operand → List Reg
  | .reg r => [r]
  | .imm _ => []

/-- `rhs_y(f)` and `src_x(f)` (R14): the register, or the immediate zero-extended (R76). -/
def State.readOperand (s : State) : Operand → Word
  | .reg r => s.readReg r
  | .imm v => v.setWidth 64

/-- The access width in bytes of a width code; none for the illegal codes 4 to 15 (R77). -/
def widthBytes (code : Nibble) : Option Nat :=
  if code.toNat < 4 then some (2 ^ code.toNat) else none

/-- A branch's target (R136, R137): the pc of the branch plus the sign-extended offset, or the register
as an absolute instruction index. -/
def State.branchTarget (s : State) : Operand → Word
  | .reg r => s.readReg r
  | .imm v => s.pc + v.signExtend 64

/-- The shift of move (R79, R140): the top bit of the selector is the direction, the other three the
amount; both shifts are logical. -/
def shiftBy (sel : Nibble) (v : Word) : Word :=
  let amt := sel.toNat % 8
  if sel.getLsbD 3 then v >>> amt else v <<< amt

/-- The bits of assign's range, `4x` to `4y + 3` (R80, R144); meant for `x ≤ y`. -/
def assignMask (x y : Nibble) : Word :=
  let lo := 4 * x.toNat
  let width := 4 * y.toNat + 3 - lo + 1
  BitVec.ofNat 64 (2 ^ width - 1) <<< lo

/-- `old` with the range replaced by the low bits of `v`, zero-extended into a wider range (R144). -/
def assignValue (old : Word) (x y : Nibble) (v : Imm16) : Word :=
  (old &&& ~~~assignMask x y) ||| ((v.setWidth 64 <<< (4 * x.toNat)) &&& assignMask x y)

end Sys2Proof.Machine
end

