-- ==== Sys2Proof/Machine/Alu.lean ====
section
/-! DEFINITION. The ALU Unit (R100 to R112): add, sub, mul, div, and, or, xor. -/

namespace Sys2Proof.Machine

/-- What an ALU instruction does when no check fails (R107, R108): both operands read, the destination
written, `F.V` written by `setFlag`, the pc advanced. -/
def aluEffect (f : Word → Word → Word) (setFlag : Word → Word → State → State)
    (d x : Reg) (y : Operand) (s : State) : State :=
  let lhs := s.readReg x
  let rhs := s.readOperand y
  (setFlag lhs rhs (s.writeReg d (f lhs rhs))).advance

/-- An ALU instruction with no check of its own: the reserved-register check (R84), then its effect. -/
def aluOp (f : Word → Word → Word) (setFlag : Word → Word → State → State)
    (d x : Reg) (y : Operand) (s : State) : Except Trap State :=
  checkRoles s (d :: x :: operandRoles y) (.ok (aluEffect f setFlag d x y s))

/-- The flag write of the operations that leave V unspecified (R109). -/
def unspecifiedV (_lhs _rhs : Word) (s : State) : State := s.drawV

/-- `add` (R100). -/
def execAdd (d x : Reg) (y : Operand) (s : State) : Result :=
  finish s (aluOp (fun l r => l + r) (fun l r t => t.setV (addWraps l r)) d x y s)

/-- `sub` (R101). -/
def execSub (d x : Reg) (y : Operand) (s : State) : Result :=
  finish s (aluOp (fun l r => l - r) (fun l r t => t.setV (subBorrows l r)) d x y s)

/-- `mul` (R102). -/
def execMul (d x : Reg) (y : Operand) (s : State) : Result :=
  finish s (aluOp (fun l r => l * r) unspecifiedV d x y s)

/-- `div` (R103): a divisor of 0 raises IllegalOp before any write. -/
def execDiv (d x : Reg) (y : Operand) (s : State) : Result :=
  finish s (checkRoles s (d :: x :: operandRoles y)
    (if s.readOperand y = 0 then .error .illegalOp
      else .ok (aluEffect (fun l r => l / r) unspecifiedV d x y s)))

/-- `and` (R104). -/
def execAnd (d x : Reg) (y : Operand) (s : State) : Result :=
  finish s (aluOp (fun l r => l &&& r) unspecifiedV d x y s)

/-- `or` (R105). -/
def execOr (d x : Reg) (y : Operand) (s : State) : Result :=
  finish s (aluOp (fun l r => l ||| r) unspecifiedV d x y s)

/-- `xor` (R106). -/
def execXor (d x : Reg) (y : Operand) (s : State) : Result :=
  finish s (aluOp (fun l r => l ^^^ r) unspecifiedV d x y s)

end Sys2Proof.Machine
end

