-- ==== Sys2Proof/Machine/ControlTransfer.lean ====
section
/-! DEFINITION. The Control-Transfer Unit (R130 to R147): compare, branch, move, assign. -/

namespace Sys2Proof.Machine

/-- The value compare writes: -1, 0 or 1 (R130). -/
def cmpValue (lhs rhs : Word) : Word :=
  if cmpLess lhs rhs then ones64 else if cmpEqual lhs rhs then 0 else 1

/-- `compare` (R130). -/
def execCompare (d x : Reg) (y : Operand) (s : State) : Result :=
  let lhs := s.readReg x
  let rhs := s.readOperand y
  finish s (checkRoles s (d :: x :: operandRoles y)
    (.ok (((s.writeReg d (cmpValue lhs rhs)).setFlags
      (withZN s.flags (cmpEqual lhs rhs) (cmpLess lhs rhs))).advance)))

/-- `branch` (R136): an undefined condition code raises IllegalOp; a taken branch goes to its target,
any other advances. -/
def execBranch (cond : Nibble) (y : Operand) (s : State) : Result :=
  finish s (checkRoles s (operandRoles y)
    (match condOf cond with
      | none => .error .illegalOp
      | some c => .ok (if condHolds c s.flags then s.setPc (s.branchTarget y) else s.advance)))

/-- `move` (R140). -/
def execMove (d : Reg) (x : Operand) (shift : Nibble) (s : State) : Result :=
  finish s (checkRoles s (d :: operandRoles x)
    (.ok ((s.writeReg d (shiftBy shift (s.readOperand x))).advance)))

/-- `assign` (R144): an inverted range raises IllegalOp, whatever the destination is. -/
def execAssign (d : Reg) (x y : Nibble) (v : Imm16) (s : State) : Result :=
  finish s (checkRoles s [d]
    (if y.toNat < x.toNat then .error .illegalOp
      else .ok ((s.writeReg d (assignValue (s.readReg d) x y v)).advance)))

end Sys2Proof.Machine
end

