-- ==== Sys2Proof/Machine/Handler.lean ====
section
/-! DEFINITION. The Extended Dispatch Table (R44, R152 to R155): the function a handler's table stands
for, the handler contract (R154), which a launch asks of every handler before the first step (R48), and
the outcome of a handler. -/

namespace Sys2Proof.Machine

/-! ## Handlers as functions -/

/-- What `h_nop` answers: the pc moved on by one, nothing else (R153). -/
def nopOutcome (m : MachineState) : HandlerOutcome := .next { m with pc := m.pc + 1 }

/-- The no-op handler `h_nop` (R153): no value of its own. -/
def hNop : Handler := []

/-- A handler as the function of `(d, v, MachineState)` of R154: the first value listed for the input,
and `h_nop`'s where none is. -/
def Handler.answer : Handler → Nibble → Imm16 → MachineState → HandlerOutcome
  | [], _, _, m => nopOutcome m
  | r :: h, d, v, m =>
    if r.d = d ∧ r.v = v ∧ r.machine = m then r.outcome else Handler.answer h d v m

/-- The values of a function on the inputs of a list, as a handler. -/
def Handler.ofFun (f : Nibble → Imm16 → MachineState → HandlerOutcome)
    (inputs : List (Nibble × Imm16 × MachineState)) : Handler :=
  inputs.map (fun (d, v, m) => { d := d, v := v, machine := m, outcome := f d v m })

/-- `EXT[code]` (R44): the handler registered for the code, `h_nop` where none is (R153). -/
def ExtTable.handler : ExtTable → BitVec 8 → Handler
  | [], _ => hNop
  | (c, h) :: ext, code => if c = code then h else ExtTable.handler ext code

/-- `EXT[code]` of the machine (R44). -/
def State.handler (s : State) (code : BitVec 8) : Handler := s.ext.handler code

/-! ## The handler contract -/

/-- The segment of a launch with `SEG_SIZE = size`: in canonical form, and no byte at or past its end
(R45). -/
abbrev MachineState.segFits (size : Nat) (m : MachineState) : Prop :=
  m.seg.wf ∧ ∀ c ∈ m.seg, c.1 < size

/-- The contract of R154 between the MachineState `m` a handler takes and the one it answers, `m'`:
`stop` and the IVT are kept; flags bits 63:3 stay as they are (R39); registers 12 and 13 are written
only under `permissive` (R30, R31); the segment stays a segment of `size` bytes (assumption log 6). -/
abbrev handlerContract (size : Nat) (policy : ReservedPolicy) (m m' : MachineState) : Prop :=
  m'.stop = m.stop ∧ m'.ivt = m.ivt ∧ m'.flags >>> 3 = m.flags >>> 3 ∧
  (policy = .strict → m'.gr.r12 = m.gr.r12 ∧ m'.gr.r13 = m.gr.r13) ∧
  (m.segFits size → m'.segFits size)

/-- Whether an outcome of a handler keeps the contract; raising a fault does (R154). -/
def HandlerOutcome.keepsContract (size : Nat) (policy : ReservedPolicy) (m : MachineState) :
    HandlerOutcome → Bool
  | .fault _ => true
  | .next m' => handlerContract size policy m m'

/-- Whether a handler keeps the contract on every input (R154). It is asked where the table lists a
value: elsewhere the handler answers as `h_nop`, which keeps it. -/
def Handler.keepsContract (size : Nat) (policy : ReservedPolicy) (h : Handler) : Bool :=
  h.all (fun r => (h.answer r.d r.v r.machine).keepsContract size policy r.machine)

/-- The first registered code whose handler breaks the contract, where one does. -/
def ExtTable.broken (size : Nat) (policy : ReservedPolicy) (ext : ExtTable) : Option (BitVec 8) :=
  (ext.map Prod.fst).find? (fun code => !(ext.handler code).keepsContract size policy)

/-! ## The outcome of a handler -/

/-- The MachineState part of the state (R47). -/
def State.machine (s : State) : MachineState :=
  { gr := s.gr, flags := s.flags, pc := s.pc, seg := s.seg, ivt := s.ivt, stop := s.stop }

/-- The state with the MachineState a handler answered. -/
def State.withMachine (s : State) (m : MachineState) : State :=
  { s with gr := m.gr, flags := m.flags, pc := m.pc, seg := m.seg, ivt := m.ivt, stop := m.stop }

/-- The outcome of a handler (R152): its next state, or the fault it raised. An answer that breaks the
contract is refused (I7, I20); `launch` lets no such handler in. -/
def runHandler (code : BitVec 8) (s : State) : HandlerOutcome → Result
  | .fault k => finish s (.error k)
  | .next m =>
    if handlerContract s.segSize s.policy s.machine m then .next (s.withMachine m)
    else .refused (.handlerBreaksContract code)

end Sys2Proof.Machine
end

