-- ==== Sys2Proof/Machine/Interrupt.lean ====
section
/-! DEFINITION. The Interrupt / Trap Unit and Extended Dispatch (R150 to R155): interrupt, extended. -/

namespace Sys2Proof.Machine

/-- `interrupt` (R150, R151): vector 0 halts; any other jumps to its entry as it stands, 0 included. -/
def execInterrupt (n : Nibble) (s : State) : Result :=
  .next (if n = 0 then s.halt else s.setPc (s.vector n))

/-- `extended` (R152): the handler the Extended Dispatch Table holds for the code, on `d`, `v` and the
whole MachineState. -/
def execExtended (code : BitVec 8) (d : Nibble) (v : Imm16) (s : State) : Result :=
  runHandler code s ((s.handler code).answer d v s.machine)

end Sys2Proof.Machine
end

