-- ==== Sys2Proof/Machine/MemoryAccess.lean ====
section
/-! DEFINITION. The Memory Access Unit (R120 to R125): load and store. Field `d` is the width code and
field `x` the data register (R123). -/

namespace Sys2Proof.Machine

/-- The checks both instructions make, in their order (R125, R168): reserved registers, the width code,
the bounds; then the access, given the width and the address. -/
def memoryAccess (width : Nibble) (x : Reg) (y : Operand) (s : State)
    (access : Nat → Word → State) : Except Trap State :=
  checkRoles s (x :: operandRoles y)
    (match widthBytes width with
      | none => .error .illegalOp
      | some w =>
        if s.inBounds (s.readOperand y) w then .ok (access w (s.readOperand y)) else .error .segFault)

/-- `load` (R120). -/
def execLoad (width : Nibble) (x : Reg) (y : Operand) (s : State) : Result :=
  finish s (memoryAccess width x y s (fun w a => (s.writeReg x (s.loadBytes a w)).advance))

/-- `store` (R121). -/
def execStore (width : Nibble) (x : Reg) (y : Operand) (s : State) : Result :=
  finish s (memoryAccess width x y s (fun w a => (s.storeBytes a w (s.readReg x)).advance))

end Sys2Proof.Machine
end

