-- ==== Sys2Proof/Machine/Dispatch.lean ====
section
/-! DEFINITION. The opcode map (R83): every instruction to its meaning. -/

namespace Sys2Proof.Machine

/-- One instruction executed in a state (R84, R193). -/
def exec (i : Instr) (s : State) : Host.Outcome State Fault Refusal :=
  match i with
  -- ALU Unit
  | .add d x y => Sys2Proof.Machine.execAdd d x y s
  | .sub d x y => Sys2Proof.Machine.execSub d x y s
  | .mul d x y => Sys2Proof.Machine.execMul d x y s
  | .div d x y => Sys2Proof.Machine.execDiv d x y s
  | .and d x y => Sys2Proof.Machine.execAnd d x y s
  | .or d x y => Sys2Proof.Machine.execOr d x y s
  | .xor d x y => Sys2Proof.Machine.execXor d x y s
  -- Memory Access Unit
  | .load width x y => Sys2Proof.Machine.execLoad width x y s
  | .store width x y => Sys2Proof.Machine.execStore width x y s
  -- Control-Transfer Unit
  | .compare d x y => Sys2Proof.Machine.execCompare d x y s
  | .branch cond y => Sys2Proof.Machine.execBranch cond y s
  | .move d x shift => Sys2Proof.Machine.execMove d x shift s
  | .assign d x y v => Sys2Proof.Machine.execAssign d x y v s
  -- Interrupt / Trap Unit and Extended Dispatch Table
  | .interrupt n => Sys2Proof.Machine.execInterrupt n s
  | .extended code d v => Sys2Proof.Machine.execExtended code d v s

end Sys2Proof.Machine
end

