-- ==== Sys2Proof/WellFormed.lean ====
section
/-! DEFINITION. Which instructions an instruction word can stand for. A selector field that holds 0
selects the immediate (R74), so register `nul` is no register form of a selectable operand; every other
combination of fields has an encoding (R86, R88). -/

namespace Sys2Proof

/-- A selectable operand that a selector field can encode: any immediate, any register but `nul`
(R74, R15). -/
def Operand.wellFormed : Operand → Bool
  | .reg r => r ≠ .nul
  | .imm _ => true

/-- The instructions that have an encoding. -/
def Instr.wellFormed : Instr → Bool
  | .add _ _ y => y.wellFormed
  | .sub _ _ y => y.wellFormed
  | .mul _ _ y => y.wellFormed
  | .div _ _ y => y.wellFormed
  | .and _ _ y => y.wellFormed
  | .or _ _ y => y.wellFormed
  | .xor _ _ y => y.wellFormed
  | .load _ _ y => y.wellFormed
  | .store _ _ y => y.wellFormed
  | .compare _ _ y => y.wellFormed
  | .branch _ y => y.wellFormed
  | .move _ x _ => x.wellFormed
  | .assign _ _ _ _ => true
  | .interrupt _ => true
  | .extended _ _ _ => true

end Sys2Proof
end

