-- ==== Sys2Proof/Decode.lean ====
section
/-! DEFINITION. The instruction word: its five fields (R70, R71), the total decoder (R83 to R88), the
encoder of a well-formed instruction (R71, R92), and words kept as bytes (R65). -/

namespace Sys2Proof

/-! ## Fields -/

/-- `f.op` (R71). -/
def fieldOp (w : InstrWord) : Nibble := w.extractLsb' 0 4
/-- `f.d` (R71). -/
def fieldD (w : InstrWord) : Nibble := w.extractLsb' 4 4
/-- `f.x` (R71). -/
def fieldX (w : InstrWord) : Nibble := w.extractLsb' 8 4
/-- `f.y` (R71). -/
def fieldY (w : InstrWord) : Nibble := w.extractLsb' 12 4
/-- `f.v` (R71). -/
def fieldV (w : InstrWord) : Imm16 := w.extractLsb' 16 16

/-- `encode(op,d,x,y,v)` of R71: `v` in bits 31:16, then `y`, `x`, `d` and `op` in bits 3:0. -/
def packFields (op d x y : Nibble) (v : Imm16) : InstrWord := v ++ y ++ x ++ d ++ op

/-- The register a 4-bit field names (R20). -/
def Reg.ofField (n : Nibble) : Reg :=
  match n.toNat with
  | 0 => .nul | 1 => .r1 | 2 => .r2 | 3 => .r3 | 4 => .r4 | 5 => .r5 | 6 => .r6 | 7 => .r7
  | 8 => .base | 9 => .stack | 10 => .zero | 11 => .ones | 12 => .r12 | 13 => .r13
  | 14 => .flags | _ => .pc

/-- The index of a register (R20). -/
def Reg.toField : Reg → Nibble
  | .nul => 0 | .r1 => 1 | .r2 => 2 | .r3 => 3 | .r4 => 4 | .r5 => 5 | .r6 => 6 | .r7 => 7
  | .base => 8 | .stack => 9 | .zero => 10 | .ones => 11 | .r12 => 12 | .r13 => 13
  | .flags => 14 | .pc => 15

/-- The operand of a selector field and the immediate field: 0 selects the immediate (R14, R74). -/
def Operand.ofFields (sel : Nibble) (v : Imm16) : Operand :=
  if sel = 0 then .imm v else .reg (Reg.ofField sel)

/-- The selector field of an operand (R74, R91). -/
def Operand.selField : Operand → Nibble
  | .reg r => r.toField
  | .imm _ => 0

/-- The immediate field of an operand: 0 where a register form ignores it (R88, R92). -/
def Operand.immField : Operand → Imm16
  | .reg _ => 0
  | .imm v => v

/-! ## The decoder -/

/-- Why a word or a byte string stands for no instruction. -/
inductive DecodeError where
  /-- primary opcode 0xF, which no instruction has (R85); the machine raises IllegalOp -/
  | reservedOpcode
  /-- a byte string that ends inside an instruction word; the core itself reads whole words (R65) -/
  | truncated
deriving DecidableEq, Repr

/-- The decoder (R83, R86): total on every 32-bit word; ignored fields are not looked at (R88). -/
def decode (w : InstrWord) : Except DecodeError Instr :=
  let rd := Reg.ofField (fieldD w)
  let rx := Reg.ofField (fieldX w)
  let oy := Operand.ofFields (fieldY w) (fieldV w)
  match (fieldOp w).toNat with
  | 0 => .ok (.add rd rx oy)
  | 1 => .ok (.sub rd rx oy)
  | 2 => .ok (.mul rd rx oy)
  | 3 => .ok (.div rd rx oy)
  | 4 => .ok (.and rd rx oy)
  | 5 => .ok (.or rd rx oy)
  | 6 => .ok (.xor rd rx oy)
  | 7 => .ok (.load (fieldD w) rx oy)
  | 8 => .ok (.store (fieldD w) rx oy)
  | 9 => .ok (.compare rd rx oy)
  | 10 => .ok (.branch (fieldD w) oy)
  | 11 => .ok (.move rd (Operand.ofFields (fieldX w) (fieldV w)) (fieldY w))
  | 12 => .ok (.assign rd (fieldX w) (fieldY w) (fieldV w))
  | 13 => .ok (.interrupt (fieldD w))
  | 14 => .ok (.extended (fieldX w ++ fieldY w) (fieldD w) (fieldV w))
  | _ => .error .reservedOpcode

/-! ## The encoder -/

/-- The primary opcode of an instruction (R83). -/
def Instr.opcode : Instr → Nibble
  | .add _ _ _ => 0x0
  | .sub _ _ _ => 0x1
  | .mul _ _ _ => 0x2
  | .div _ _ _ => 0x3
  | .and _ _ _ => 0x4
  | .or _ _ _ => 0x5
  | .xor _ _ _ => 0x6
  | .load _ _ _ => 0x7
  | .store _ _ _ => 0x8
  | .compare _ _ _ => 0x9
  | .branch _ _ => 0xA
  | .move _ _ _ => 0xB
  | .assign _ _ _ _ => 0xC
  | .interrupt _ => 0xD
  | .extended _ _ _ => 0xE

/-- The word of an instruction, with 0 in every ignored field (R71, R88, R92). It is meant for
well-formed instructions; `.reg .nul` in a selectable operand has no encoding (R74). -/
def encode : Instr → InstrWord
  | .add d x y => packFields 0x0 d.toField x.toField y.selField y.immField
  | .sub d x y => packFields 0x1 d.toField x.toField y.selField y.immField
  | .mul d x y => packFields 0x2 d.toField x.toField y.selField y.immField
  | .div d x y => packFields 0x3 d.toField x.toField y.selField y.immField
  | .and d x y => packFields 0x4 d.toField x.toField y.selField y.immField
  | .or d x y => packFields 0x5 d.toField x.toField y.selField y.immField
  | .xor d x y => packFields 0x6 d.toField x.toField y.selField y.immField
  | .load wd x y => packFields 0x7 wd x.toField y.selField y.immField
  | .store wd x y => packFields 0x8 wd x.toField y.selField y.immField
  | .compare d x y => packFields 0x9 d.toField x.toField y.selField y.immField
  | .branch c y => packFields 0xA c 0 y.selField y.immField
  | .move d x sh => packFields 0xB d.toField x.selField sh x.immField
  | .assign d x y v => packFields 0xC d.toField x y v
  | .interrupt n => packFields 0xD n 0 0 0
  | .extended code d v => packFields 0xE d (code.extractLsb' 4 4) (code.extractLsb' 0 4) v

/-- A word with every ignored field cleared (R73, R88): `v` where a selector field names a register,
`x` of branch, and `x`, `y` and `v` of interrupt. -/
def canonicalWord (w : InstrWord) : InstrWord :=
  let op := fieldOp w
  let v := fieldV w
  let vSel (sel : Nibble) : Imm16 := if sel = 0 then v else 0
  match op.toNat with
  | 10 => packFields op (fieldD w) 0 (fieldY w) (vSel (fieldY w))
  | 11 => packFields op (fieldD w) (fieldX w) (fieldY w) (vSel (fieldX w))
  | 12 | 14 | 15 => w
  | 13 => packFields op (fieldD w) 0 0 0
  | _ => packFields op (fieldD w) (fieldX w) (fieldY w) (vSel (fieldY w))

/-! ## Words kept as bytes -/

/-- The four bytes of a word, lowest address first, little-endian (R65). -/
def wordToBytes (w : InstrWord) : List Byte :=
  [w.extractLsb' 0 8, w.extractLsb' 8 8, w.extractLsb' 16 8, w.extractLsb' 24 8]

/-- The word of four bytes, lowest address first, little-endian (R65). -/
def wordOfBytes (b0 b1 b2 b3 : Byte) : InstrWord := b3 ++ b2 ++ b1 ++ b0

/-- The instruction at the front of a byte string, and the bytes after it (R65). -/
def decodeBytes : List Byte → Except DecodeError (Instr × List Byte)
  | b0 :: b1 :: b2 :: b3 :: rest =>
    match decode (wordOfBytes b0 b1 b2 b3) with
    | .ok i => .ok (i, rest)
    | .error e => .error e
  | _ => .error .truncated

/-- The program words of a byte string: word `i` is bytes `4i .. 4i+3` (R65); none where the string
ends inside a word. -/
def programOfBytes : List Byte → Option (List InstrWord)
  | [] => some []
  | b0 :: b1 :: b2 :: b3 :: rest =>
    match programOfBytes rest with
    | some ws => some (wordOfBytes b0 b1 b2 b3 :: ws)
    | none => none
  | _ => none

/-! ## The host's opcode-table words -/

/-- The instruction word whose lowest `nbits` bits are `w`'s and whose other bits are 0, in the
numbering of spec/opcode_table.json. -/
def tableWord (nbits w : Nat) : InstrWord := BitVec.ofNat 32 (w % 2 ^ nbits)

/-- What the decoder reads from such a word, stored as bytes in the order of R65. -/
def decodeTableWord (nbits w : Nat) : Option Instr :=
  match decodeBytes (wordToBytes (tableWord nbits w)) with
  | .ok (i, _) => some i
  | .error _ => none

end Sys2Proof
end

