-- ==== Sys2Proof/Machine/Fetch.lean ====
section
/-! DEFINITION. Fetch and decode, the front of the Execution Loop (R62, R84, R193), and a program word
placed where the next fetch finds it. -/

namespace Sys2Proof.Machine

/-- `Fetch(pc)` (R12, R62): word `pc` of `PROG`, none where the pc is at or past `N`. -/
def State.fetchWord (s : State) : Option InstrWord := s.prog[s.pc.toNat]?

/-- What the front of the Execution Loop finds. -/
inductive Fetched where
  /-- the machine has stopped: no step exists (R193, R198) -/
  | stopped (why : Stop)
  /-- the fetch or the opcode raises a fault (R62, R85) -/
  | raises (k : Trap)
  /-- an instruction to execute -/
  | instr (i : Instr)
deriving DecidableEq, Repr

/-- The checks of a step before the instruction's own, in the order of R168. -/
def State.fetchDecode (s : State) : Fetched :=
  if s.stop = .running then
    match s.fetchWord with
    | none => .raises .segFault
    | some w =>
      match decode w with
      | .error _ => .raises .illegalOp
      | .ok i => .instr i
  else .stopped s.stop

/-- The program with word `k` replaced by `w`; a program that ends before `k` is first lengthened with
words of zeros. -/
def placeWord (prog : List InstrWord) (k : Nat) (w : InstrWord) : List InstrWord :=
  (prog ++ List.replicate (k + 1 - prog.length) 0).set k w

end Sys2Proof.Machine
end

