-- ==== Sys2Proof/Machine/Step.lean ====
section
/-! DEFINITION. The Execution Loop's step (R193, R195): one instruction, or one faulting fetch, with its
trap delivery. -/

namespace Sys2Proof.Machine

/-- One step (R193). -/
def step (s : State) : Host.Outcome State Fault Refusal :=
  match s.fetchDecode with
  | .stopped why => .fault (.machineStopped why)
  | .raises k => .next (s.takeTrap k)
  | .instr i => exec i s

/-- The state with an instruction word where the next step fetches: the word at the pc of a running
machine's program store (assumption log 2). -/
def State.withFetchWord (s : State) (nbits w : Nat) : State :=
  { s with prog := placeWord s.prog s.pc.toNat (tableWord nbits w), stop := .running }

end Sys2Proof.Machine
end

