-- ==== Sys2Proof/Machine/Pseudo.lean ====
section
/-! DEFINITION. The pseudo-instructions of the spec's own notation (R94), each by its expansion into
instructions. They are no state and no step of the machine; the text form of the assembler is out of
scope (R4). -/

namespace Sys2Proof

/-- A register written in a selector position (R91, R92): the field is its index, so `nul` there
selects the immediate 0. -/
def Operand.named (r : Reg) : Operand := Operand.ofFields r.toField 0

/-- The pseudo-instructions of R94. -/
inductive Pseudo where
  | halt
  | nop
  | li (rd : Reg) (v : Imm16)
  | mov (rd rx : Reg)
  | li64 (rd : Reg) (k : Word)
  | cmpReg (rx ry : Reg)
  | cmpImm (rx : Reg) (v : Imm16)
  | not (rd rx : Reg)
  | neg (rd rx : Reg)
  | inc (rd : Reg)
  | dec (rd : Reg)
  | jmp (off : Imm16)
  | jr (ry : Reg)
  | beq (off : Imm16)
  | bne (off : Imm16)
  | blt (off : Imm16)
  | bge (off : Imm16)
  | bgt (off : Imm16)
  | bvs (off : Imm16)
  | bvc (off : Imm16)
deriving DecidableEq, Repr

/-- The four assigns that build a 64-bit constant, lowest range first (R94, R146). -/
def li64Parts (rd : Reg) (k : Word) : List Instr :=
  [.assign rd 0x0 0x3 (k.extractLsb' 0 16), .assign rd 0x4 0x7 (k.extractLsb' 16 16),
   .assign rd 0x8 0xB (k.extractLsb' 32 16), .assign rd 0xC 0xF (k.extractLsb' 48 16)]

/-- The expansion of a pseudo-instruction (R94). -/
def Pseudo.expand : Pseudo → List Instr
  | .halt => [.interrupt 0]
  | .nop => [.move .nul (.imm 0) 0]
  | .li rd v => [.move rd (.imm v) 0]
  | .mov rd rx => [.move rd (.named rx) 0]
  | .li64 rd k => li64Parts rd k
  | .cmpReg rx ry => [.compare .nul rx (.named ry)]
  | .cmpImm rx v => [.compare .nul rx (.imm v)]
  | .not rd rx => [.xor rd rx (.reg .ones)]
  | .neg rd rx => [.sub rd .nul (.named rx)]
  | .inc rd => [.add rd rd (.imm 1)]
  | .dec rd => [.sub rd rd (.imm 1)]
  | .jmp off => [.branch 0 (.imm off)]
  | .jr ry => [.branch 0 (.named ry)]
  | .beq off => [.branch 1 (.imm off)]
  | .bne off => [.branch 2 (.imm off)]
  | .blt off => [.branch 5 (.imm off)]
  | .bge off => [.branch 6 (.imm off)]
  | .bgt off => [.branch 7 (.imm off)]
  | .bvs off => [.branch 3 (.imm off)]
  | .bvc off => [.branch 4 (.imm off)]

end Sys2Proof
end

