-- ==== Sys2Proof/Machine/Launch.lean ====
section
/-! DEFINITION. The launch interface (R48, R49, R190 to R192): the inputs of an `execute` call, the
machine it creates, and what the caller may observe when the machine has stopped. -/

namespace Sys2Proof.Machine

/-- The launch inputs (R6, R48). -/
structure Launch where
  /-- `PROG` (R46) -/
  prog : List InstrWord
  /-- `IVT_INIT`; entry 0 is not used (R43) -/
  ivtInit : Vector Word 16
  /-- `SEG_SIZE` (R67) -/
  segSize : Nat
  /-- `RESERVED_REG_POLICY` (R26) -/
  policy : ReservedPolicy
  /-- `EXT_HANDLERS`: the handlers registered, each for an extended opcode (R44, R155) -/
  extHandlers : ExtTable
deriving DecidableEq, Repr

/-- The defaults of R6, with the empty program. -/
def defaultLaunch : Launch where
  prog := []
  ivtInit := Vector.replicate 16 0
  segSize := Config.defaultSegSize
  policy := Config.defaultPolicy
  extHandlers := []

/-- The machine created for a launch (R190), or, before the first step, the refusal of a launch out of
range: a `SEG_SIZE` over 2^64, or a handler that breaks R154 (R48, I20). -/
def launch (l : Launch) : Except Refusal State :=
  if l.segSize ≤ Config.maxSegSize then
    match l.extHandlers.broken l.segSize l.policy with
    | some code => .error (.handlerBreaksContract code)
    | none =>
      .ok { State.reset with
            prog := l.prog, ivt := l.ivtInit.set 0 0, segSize := l.segSize, policy := l.policy
            ext := l.extHandlers }
  else .error (.segSizeOutOfRange l.segSize)

/-- What the caller observes of a stopped machine (R49, R196). -/
structure Observation where
  gr : GprFile
  flags : Word
  pc : Word
  seg : Memory
  stop : Stop
deriving DecidableEq, Repr

/-- The launch's output: none while the machine runs (R49). -/
def State.observe (s : State) : Option Observation :=
  if s.stop = .running then none
  else some { gr := s.gr, flags := s.flags, pc := s.pc, seg := s.seg, stop := s.stop }

end Sys2Proof.Machine
end

