-- ==== Sys2Proof/Machine/Run.lean ====
section
/-! DEFINITION. Runs: the Execution Loop repeated under fuel (R193, R197), and a list of instructions
executed one after another. -/

namespace Sys2Proof.Machine

/-- How a run under fuel ends (R196, R197). -/
inductive RunEnd where
  /-- the machine stopped in this state -/
  | stopped (s : State)
  /-- the fuel ran out in this state of a running machine -/
  | outOfFuel (s : State)
  /-- a step was refused -/
  | refused (r : Refusal)
deriving DecidableEq, Repr

/-- At most `fuel` steps, ending when the machine has stopped. -/
def run : Nat → State → RunEnd
  | 0, s => if s.stop = .running then .outOfFuel s else .stopped s
  | fuel + 1, s =>
    match step s with
    | .next t => run fuel t
    | .fault _ => .stopped s
    | .refused r => .refused r

/-- Instructions executed in the order of a list, while each gives a next state. -/
def execAll : List Instr → State → Result
  | [], s => .next s
  | i :: rest, s =>
    match exec i s with
    | .next t => execAll rest t
    | .fault r => .fault r
    | .refused r => .refused r

end Sys2Proof.Machine
end

