-- ==== Sys2Proof/Safety.lean ====
section
/-! DEFINITION. The words the claims are stated in: the invariant of the machine, what an instruction
leaves unchanged, the faults of R161 and R162 as a table of their own, and the trap of R166 and R167
spelled out with its numbers. None of the meanings uses a definition of this file. -/

namespace Sys2Proof.Machine

/-! ## The invariant -/

/-- Every handler of the Extended Dispatch Table keeps the contract of R154, as R48 asks of a launch. -/
abbrev State.handlersKeepContract (s : State) : Prop :=
  ∀ entry ∈ s.ext, (s.handler entry.1).keepsContract s.segSize s.policy = true

/-- What every state of a launched machine satisfies: the segment in canonical form and inside
`SEG_SIZE` (R45), `SEG_SIZE` in its range (R67), flags bits 63:3 reading 0 (R38), vector entry 0 holding
0 (R43), under `strict` registers 12 and 13 at their reset value 0 (R20, R33), and handlers that keep
their contract (R48, R154). -/
abbrev State.Inv (s : State) : Prop :=
  s.seg.wf ∧ (∀ c ∈ s.seg, c.1 < s.segSize) ∧ s.segSize ≤ 2 ^ 64 ∧ s.flags >>> 3 = 0 ∧
  s.vector 0 = 0 ∧ (s.policy = .strict → s.gr.r12 = 0 ∧ s.gr.r13 = 0) ∧ s.handlersKeepContract

/-! ## Registers -/

/-- The registers a write reaches: 1 to 9, 12 and 13 (R30, R32). -/
def isStorage (r : Reg) : Bool :=
  match r with
  | .nul | .zero | .ones | .flags | .pc => false
  | .r1 | .r2 | .r3 | .r4 | .r5 | .r6 | .r7 | .base | .stack | .r12 | .r13 => true

/-- No register-role field is stopped by the reserved-register check (R33). -/
abbrev rolesAllowed (s : State) (roles : List Reg) : Prop :=
  s.policy = .strict → Reg.r12 ∉ roles ∧ Reg.r13 ∉ roles

/-- The destination register field of an instruction: `d`, or `x` of a load; none for an instruction
that writes no register by a field (R73). -/
def destField : Instr → Option Reg
  | .add d _ _ | .sub d _ _ | .mul d _ _ | .div d _ _ | .and d _ _ | .or d _ _ | .xor d _ _
  | .compare d _ _ | .move d _ _ | .assign d _ _ _ => some d
  | .load _ x _ => some x
  | .store _ _ _ | .branch _ _ | .interrupt _ | .extended _ _ _ => none

/-- An instruction whose effect may depend on the flags: a branch on one of the seven conditions that
test a flag, or a source operand that is register 14 (R39). -/
def readsFlags : Instr → Bool
  | .add _ x y | .sub _ x y | .mul _ x y | .div _ x y | .and _ x y | .or _ x y | .xor _ x y
  | .compare _ x y | .store _ x y => x = .flags || y = .reg .flags
  | .load _ _ y => y = .reg .flags
  | .branch c y => (1 ≤ c.toNat && c.toNat < 8) || y = .reg .flags
  | .move _ x _ => x = .reg .flags
  | .assign _ _ _ _ | .interrupt _ | .extended _ _ _ => false

/-! ## Frames: what an instruction leaves unchanged from `s` to `t` -/

/-- Every register but the flags and the pc reads as before. -/
abbrev sameRegs (s t : State) : Prop :=
  ∀ r : Reg, r ≠ .flags → r ≠ .pc → t.readReg r = s.readReg r

/-- Every register but the flags and the pc reads as before, except that `d`, where it is a storage
register, reads `v`; a write to any other `d` is discarded (R32). -/
abbrev writesReg (s t : State) (d : Reg) (v : Word) : Prop :=
  ∀ r : Reg, r ≠ .flags → r ≠ .pc →
    t.readReg r = if r = d ∧ isStorage d then v else s.readReg r

/-- Every flags bit but those listed is as before. -/
abbrev sameFlagsBut (s t : State) (bits : List Nat) : Prop :=
  ∀ i : Nat, i ∉ bits → t.flags.getLsbD i = s.flags.getLsbD i

/-- Every byte of the segment reads as before. -/
abbrev sameMemory (s t : State) : Prop :=
  ∀ a : Nat, t.seg.read a = s.seg.read a

/-- The vector table and the launch parameters are as before. -/
abbrev sameTables (s t : State) : Prop :=
  t.ivt = s.ivt ∧ t.prog = s.prog ∧ t.segSize = s.segSize ∧ t.policy = s.policy ∧ t.ext = s.ext

/-- The tables, the termination state and the model's draw counter are as before. -/
abbrev sameRest (s t : State) : Prop :=
  sameTables s t ∧ t.stop = s.stop ∧ t.draws = s.draws

/-! ## Faults -/

/-- The trap of a fault, spelled out: vector 1 and `FAULT_SEGV`, vector 2 and `FAULT_ILLEGAL`; the pc at
the entry where it is set, the stop reason recorded where it is 0, nothing else changed
(R163, R165 to R167). -/
def trapTaken (s : State) : Trap → State
  | .segFault => if s.ivt[1] = 0 then { s with stop := .faultSegv } else { s with pc := s.ivt[1] }
  | .illegalOp => if s.ivt[2] = 0 then { s with stop := .faultIllegal } else { s with pc := s.ivt[2] }

/-- The register a selector field names; none where it selects the immediate (R75). -/
def selectedReg (y : Operand) : List Reg :=
  match y with
  | .reg r => [r]
  | .imm _ => []

/-- The register-role fields of an instruction, without a selector that selects the immediate (R75). -/
def roleFields : Instr → List Reg
  | .add d x y | .sub d x y | .mul d x y | .div d x y | .and d x y | .or d x y | .xor d x y
  | .compare d x y => d :: x :: selectedReg y
  | .load _ x y | .store _ x y => x :: selectedReg y
  | .branch _ y => selectedReg y
  | .move d x _ => d :: selectedReg x
  | .assign d _ _ _ => [d]
  | .interrupt _ => []
  | .extended _ _ _ => []

/-- An instruction that the reserved-register check stops (R33). -/
abbrev usesReserved (i : Instr) (s : State) : Prop :=
  s.policy = .strict ∧ (Reg.r12 ∈ roleFields i ∨ Reg.r13 ∈ roleFields i)

/-- The fault an instruction raises by a rule of its own, the reserved-register check apart: the cases
of R161 and R162, in the order of R168. -/
def ownFault (i : Instr) (s : State) : Option Trap :=
  match i with
  | .div _ _ y => if s.readOperand y = 0 then some .illegalOp else none
  | .load width _ y | .store width _ y =>
    if 4 ≤ width.toNat then some .illegalOp
    else if s.segSize < (s.readOperand y).toNat + 2 ^ width.toNat then some .segFault
    else none
  | .branch cond _ => if 8 ≤ cond.toNat then some .illegalOp else none
  | .assign _ x y _ => if y.toNat < x.toNat then some .illegalOp else none
  | .extended code d v =>
    match (s.handler code).answer d v s.machine with
    | .fault k => some k
    | .next _ => none
  | .add _ _ _ | .sub _ _ _ | .mul _ _ _ | .and _ _ _ | .or _ _ _ | .xor _ _ _
  | .compare _ _ _ | .move _ _ _ | .interrupt _ => none

/-- The fault an instruction raises (R161, R162). -/
def instrFault (i : Instr) (s : State) : Option Trap :=
  if usesReserved i s then some .illegalOp else ownFault i s

/-- The fault of a running machine's next step: at fetch, at the opcode, or the instruction's
(R161, R162, R168). -/
def stepFault (s : State) : Option Trap :=
  if s.prog.length ≤ s.pc.toNat then some .segFault
  else
    match decode (s.prog.getD s.pc.toNat 0) with
    | .error _ => some .illegalOp
    | .ok i => instrFault i s

/-- An `extended` whose code has a handler other than `h_nop`, which may change anything R154 allows. -/
abbrev runsHandler (i : Instr) (s : State) : Prop :=
  ∃ code d v, i = .extended code d v ∧ s.handler code ≠ hNop

/-- The pc after an instruction that raises no fault and runs no supplied handler: the cases (a) to (d)
of R36. -/
def pcAfter (i : Instr) (s : State) : Word :=
  match i with
  | .branch c y =>
    let taken :=
      match c.toNat with
      | 0 => true
      | 1 => s.flags.getLsbD 1
      | 2 => !s.flags.getLsbD 1
      | 3 => s.flags.getLsbD 0
      | 4 => !s.flags.getLsbD 0
      | 5 => s.flags.getLsbD 2
      | 6 => !s.flags.getLsbD 2
      | _ => !s.flags.getLsbD 1 && !s.flags.getLsbD 2
    if taken then (match y with | .reg r => s.readReg r | .imm v => s.pc + v.signExtend 64)
    else s.pc + 1
  | .interrupt n => if n = 0 then s.pc else s.ivt.get n.toFin
  | .add _ _ _ | .sub _ _ _ | .mul _ _ _ | .div _ _ _ | .and _ _ _ | .or _ _ _ | .xor _ _ _
  | .load _ _ _ | .store _ _ _ | .compare _ _ _ | .move _ _ _ | .assign _ _ _ _
  | .extended _ _ _ => s.pc + 1

/-- A safe run in the terms of the CORE: no unhandled fault has stopped the machine (R160). -/
abbrev State.noUnhandledFault (s : State) : Prop := s.stop ≠ .faultSegv ∧ s.stop ≠ .faultIllegal

end Sys2Proof.Machine
end

