-- ==== Sys2Proof/Certificates/Slice0/Obligations.lean ====
section
/-! DEFINITION. The statements for the provers, in the order of OBLIGATIONS.json. Each docstring names
the rules of spec/ the statement formalises; the vocabulary stands in `Sys2Proof/Safety.lean`. -/

open Sys2Proof Sys2Proof.Machine

/-! ## Encoding -/

/-- R71, R83, R92: decoding the word of a well-formed instruction gives the instruction back, with every
operand at every value. -/
def Obligations.DecodeEncodeRoundTrip : Prop :=
  ∀ i : Instr, i.wellFormed → decode (encode i) = .ok i

/-- R73, R88: what the decoder reads from a word is well formed, and encoding it gives the word with its
ignored fields cleared. -/
def Obligations.EncodeDecodeClearsIgnoredFields : Prop :=
  ∀ (w : InstrWord) (i : Instr), decode w = .ok i →
    i.wellFormed ∧ encode i = canonicalWord w

/-- R88: a field marked `-` in R73 does not change what a word decodes to, and neither does `v` where
the selector field is not 0. -/
def Obligations.IgnoredFieldsDoNotChangeDecoding : Prop :=
  (∀ (op d x y : Nibble) (v v' : Imm16), op.toNat ≤ 10 → y ≠ 0 →
    decode (packFields op d x y v) = decode (packFields op d x y v')) ∧
  (∀ (d x x' y : Nibble) (v : Imm16),
    decode (packFields 0xA d x y v) = decode (packFields 0xA d x' y v)) ∧
  (∀ (d x y : Nibble) (v v' : Imm16), x ≠ 0 →
    decode (packFields 0xB d x y v) = decode (packFields 0xB d x y v')) ∧
  (∀ (d x x' y y' : Nibble) (v v' : Imm16),
    decode (packFields 0xD d x y v) = decode (packFields 0xD d x' y' v'))

/-- R85, R86: every word decodes to an instruction but the words of primary opcode 0xF. -/
def Obligations.DecoderRefusesExactlyOpcodeF : Prop :=
  ∀ w : InstrWord,
    (w.extractLsb' 0 4 = 0xF → decode w = .error .reservedOpcode) ∧
    (w.extractLsb' 0 4 ≠ 0xF → ∃ i, decode w = .ok i)

/-- R93: the worked encoding examples, read and written. -/
def Obligations.WorkedEncodingExamplesDecode : Prop :=
  (decode 0x00003210 = .ok (.add .r1 .r2 (.reg .r3)) ∧
    encode (.add .r1 .r2 (.reg .r3)) = 0x00003210) ∧
  (decode 0x00050210 = .ok (.add .r1 .r2 (.imm 5)) ∧
    encode (.add .r1 .r2 (.imm 5)) = 0x00050210) ∧
  (decode 0x00100137 = .ok (.load 3 .r1 (.imm 16)) ∧
    encode (.load 3 .r1 (.imm 16)) = 0x00100137) ∧
  (decode 0xFFFF000A = .ok (.branch 0 (.imm (BitVec.ofInt 16 (-1)))) ∧
    encode (.branch 0 (.imm (BitVec.ofInt 16 (-1)))) = 0xFFFF000A) ∧
  (decode 0x1234741C = .ok (.assign .r1 4 7 0x1234) ∧
    encode (.assign .r1 4 7 0x1234) = 0x1234741C) ∧
  (decode 0x0000000D = .ok (.interrupt 0) ∧ encode (.interrupt 0) = 0x0000000D)

/-- R65: a program kept as a byte string, four bytes a word and the lowest byte first, is read back word
by word. -/
def Obligations.ProgramBytesReadBack : Prop :=
  ∀ ws : List InstrWord, programOfBytes (ws.flatMap wordToBytes) = some ws ∧
    ∀ (i k : Nat) (w : InstrWord), ws[i]? = some w → k < 4 →
      (ws.flatMap wordToBytes)[4 * i + k]? = some (w.extractLsb' (8 * k) 8)

/-! ## The step and the fetch -/

/-- R193: when the word at the pc of a running machine decodes to an instruction, the step is that
instruction executed in that state. -/
def Obligations.StepRunsTheDecodedInstruction : Prop :=
  ∀ (s : State) (w : InstrWord) (i : Instr), s.stop = .running →
    s.prog[s.pc.toNat]? = some w → decode w = .ok i → step s = exec i s

/-- R62: a pc at or past `N` raises SegFault; below `N` the word fetched is word `pc` of `PROG`. -/
def Obligations.FetchFollowsR62 : Prop :=
  ∀ s : State, s.stop = .running →
    (s.prog.length ≤ s.pc.toNat → step s = .next (trapTaken s .segFault)) ∧
    ∀ h : s.pc.toNat < s.prog.length, s.fetchWord = some s.prog[s.pc.toNat]

/-- R85: a fetched word of primary opcode 0xF raises IllegalOp. -/
def Obligations.OpcodeFRaisesIllegalOp : Prop :=
  ∀ (s : State) (w : InstrWord), s.stop = .running → s.prog[s.pc.toNat]? = some w →
    w.extractLsb' 0 4 = 0xF → step s = .next (trapTaken s .illegalOp)

/-- R198: a stopped machine takes no step, so no state element of it changes again, however much fuel
a run has. That `step` says so with the fault `machineStopped` is the model's (assumption log 4). -/
def Obligations.StoppedMachineIsFinal : Prop :=
  ∀ s : State, s.stop ≠ .running →
    step s = .fault (.machineStopped s.stop) ∧ ∀ fuel : Nat, run fuel s = .stopped s

/-! ## Faults and traps -/

/-- R165, R166: a fault whose vector entry is set takes the pc to the entry and changes nothing else. -/
def Obligations.HandledFaultEntersItsVector : Prop :=
  ∀ s : State, s.stop = .running →
    (stepFault s = some .segFault → s.ivt[1] ≠ 0 → step s = .next { s with pc := s.ivt[1] }) ∧
    (stepFault s = some .illegalOp → s.ivt[2] ≠ 0 → step s = .next { s with pc := s.ivt[2] })

/-- R165, R167: a fault whose vector entry is 0 records its stop reason and changes nothing else, and the
machine takes no further step. That `step` says so with the fault `machineStopped` is the model's
(assumption log 4). -/
def Obligations.UnhandledFaultStopsTheMachine : Prop :=
  ∀ s : State, s.stop = .running →
    (stepFault s = some .segFault → s.ivt[1] = 0 →
      step s = .next { s with stop := .faultSegv } ∧
      step { s with stop := .faultSegv } = .fault (.machineStopped .faultSegv)) ∧
    (stepFault s = some .illegalOp → s.ivt[2] = 0 →
      step s = .next { s with stop := .faultIllegal } ∧
      step { s with stop := .faultIllegal } = .fault (.machineStopped .faultIllegal))

/-- R161, R162: a step that raises none of the listed faults takes no trap: its next state is running
or halted. -/
def Obligations.NoOtherFaultIsRaised : Prop :=
  ∀ s t : State, s.stop = .running → stepFault s = none → step s = .next t →
    t.stop = .running ∨ t.stop = .halt

/-- R33, R75: under `strict` a register-role field that holds 12 or 13 raises IllegalOp, whatever else
the instruction would do; fields that are no register role are not checked, and under `permissive` none
is: the instruction then completes where its own rule raises nothing. -/
def Obligations.ReservedRegisterUseRaisesIllegalOp : Prop :=
  ∀ (i : Instr) (s : State),
    (usesReserved i s → exec i s = .next (trapTaken s .illegalOp)) ∧
    (¬ usesReserved i s → ownFault i s = none → ¬ runsHandler i s →
      ∃ t, exec i s = .next t ∧ t.pc = pcAfter i s ∧
        t.stop = (if i = .interrupt 0 then .halt else s.stop))

/-- R168: within one instruction IllegalOp wins over SegFault: an access with an illegal width code
raises IllegalOp wherever its address lies. -/
def Obligations.IllegalWidthWinsOverBounds : Prop :=
  ∀ (width : Nibble) (x : Reg) (y : Operand) (s : State), 4 ≤ width.toNat →
    exec (.load width x y) s = .next (trapTaken s .illegalOp) ∧
    exec (.store width x y) s = .next (trapTaken s .illegalOp)

/-! ## The ALU Unit -/

/-- R100: add. -/
def Obligations.AddFollowsR100 : Prop :=
  (∀ (d x y : Nibble) (v : Imm16), decode (packFields 0x0 d x y v) =
    .ok (.add (Reg.ofField d) (Reg.ofField x) (Operand.ofFields y v))) ∧
  ∀ (d x : Reg) (y : Operand) (s : State),
    rolesAllowed s (roleFields (.add d x y)) →
    ∃ t, exec (.add d x y) s = .next t ∧
      writesReg s t d
        (BitVec.ofNat 64 ((s.readReg x).toNat + (s.readOperand y).toNat)) ∧
      (t.flags.getLsbD 0 = true ↔ 2 ^ 64 ≤ (s.readReg x).toNat + (s.readOperand y).toNat) ∧
      sameFlagsBut s t [0] ∧ t.pc = s.pc + 1 ∧ sameMemory s t ∧ sameRest s t

/-- R101: sub. -/
def Obligations.SubFollowsR101 : Prop :=
  (∀ (d x y : Nibble) (v : Imm16), decode (packFields 0x1 d x y v) =
    .ok (.sub (Reg.ofField d) (Reg.ofField x) (Operand.ofFields y v))) ∧
  ∀ (d x : Reg) (y : Operand) (s : State),
    rolesAllowed s (roleFields (.sub d x y)) →
    ∃ t, exec (.sub d x y) s = .next t ∧
      writesReg s t d
        (BitVec.ofInt 64 ((s.readReg x).toNat - (s.readOperand y).toNat)) ∧
      (t.flags.getLsbD 0 = true ↔ (s.readReg x).toNat < (s.readOperand y).toNat) ∧
      sameFlagsBut s t [0] ∧ t.pc = s.pc + 1 ∧ sameMemory s t ∧ sameRest s t

/-- R102: mul. V is the free draw, the `draws`-th value of `Config.vdraw`, and the counter moves on; the
counter is the model's (assumption log 3). -/
def Obligations.MulFollowsR102 : Prop :=
  (∀ (d x y : Nibble) (v : Imm16), decode (packFields 0x2 d x y v) =
    .ok (.mul (Reg.ofField d) (Reg.ofField x) (Operand.ofFields y v))) ∧
  ∀ (d x : Reg) (y : Operand) (s : State),
    rolesAllowed s (roleFields (.mul d x y)) →
    ∃ t, exec (.mul d x y) s = .next t ∧
      writesReg s t d
        (BitVec.ofNat 64 ((s.readReg x).toNat * (s.readOperand y).toNat)) ∧
      t.flags.getLsbD 0 = Config.vdraw s.draws ∧ t.draws = s.draws + 1 ∧
      sameFlagsBut s t [0] ∧ t.pc = s.pc + 1 ∧ sameMemory s t ∧ sameTables s t ∧ t.stop = s.stop

/-- R103: div; a divisor of 0 raises IllegalOp whatever the dividend and the destination are. V is the
free draw, the `draws`-th value of `Config.vdraw`, and the counter moves on; the counter is the model's
(assumption log 3). -/
def Obligations.DivFollowsR103 : Prop :=
  (∀ (d x y : Nibble) (v : Imm16), decode (packFields 0x3 d x y v) =
    .ok (.div (Reg.ofField d) (Reg.ofField x) (Operand.ofFields y v))) ∧
  ∀ (d x : Reg) (y : Operand) (s : State),
    (s.readOperand y = 0 → exec (.div d x y) s = .next (trapTaken s .illegalOp)) ∧
    (rolesAllowed s (roleFields (.div d x y)) → s.readOperand y ≠ 0 →
      ∃ t, exec (.div d x y) s = .next t ∧
        writesReg s t d
          (BitVec.ofNat 64 ((s.readReg x).toNat / (s.readOperand y).toNat)) ∧
        t.flags.getLsbD 0 = Config.vdraw s.draws ∧ t.draws = s.draws + 1 ∧
        sameFlagsBut s t [0] ∧ t.pc = s.pc + 1 ∧ sameMemory s t ∧ sameTables s t ∧
        t.stop = s.stop)

/-- R104: and. V is the free draw, the `draws`-th value of `Config.vdraw`, and the counter moves on; the
counter is the model's (assumption log 3). -/
def Obligations.AndFollowsR104 : Prop :=
  (∀ (d x y : Nibble) (v : Imm16), decode (packFields 0x4 d x y v) =
    .ok (.and (Reg.ofField d) (Reg.ofField x) (Operand.ofFields y v))) ∧
  ∀ (d x : Reg) (y : Operand) (s : State),
    rolesAllowed s (roleFields (.and d x y)) →
    ∃ t r, exec (.and d x y) s = .next t ∧
      (∀ k : Nat, r.getLsbD k = ((s.readReg x).getLsbD k && (s.readOperand y).getLsbD k)) ∧
      writesReg s t d r ∧
      t.flags.getLsbD 0 = Config.vdraw s.draws ∧ t.draws = s.draws + 1 ∧
      sameFlagsBut s t [0] ∧ t.pc = s.pc + 1 ∧ sameMemory s t ∧ sameTables s t ∧ t.stop = s.stop

/-- R105: or. V is the free draw, the `draws`-th value of `Config.vdraw`, and the counter moves on; the
counter is the model's (assumption log 3). -/
def Obligations.OrFollowsR105 : Prop :=
  (∀ (d x y : Nibble) (v : Imm16), decode (packFields 0x5 d x y v) =
    .ok (.or (Reg.ofField d) (Reg.ofField x) (Operand.ofFields y v))) ∧
  ∀ (d x : Reg) (y : Operand) (s : State),
    rolesAllowed s (roleFields (.or d x y)) →
    ∃ t r, exec (.or d x y) s = .next t ∧
      (∀ k : Nat, r.getLsbD k = ((s.readReg x).getLsbD k || (s.readOperand y).getLsbD k)) ∧
      writesReg s t d r ∧
      t.flags.getLsbD 0 = Config.vdraw s.draws ∧ t.draws = s.draws + 1 ∧
      sameFlagsBut s t [0] ∧ t.pc = s.pc + 1 ∧ sameMemory s t ∧ sameTables s t ∧ t.stop = s.stop

/-- R106: xor. V is the free draw, the `draws`-th value of `Config.vdraw`, and the counter moves on; the
counter is the model's (assumption log 3). -/
def Obligations.XorFollowsR106 : Prop :=
  (∀ (d x y : Nibble) (v : Imm16), decode (packFields 0x6 d x y v) =
    .ok (.xor (Reg.ofField d) (Reg.ofField x) (Operand.ofFields y v))) ∧
  ∀ (d x : Reg) (y : Operand) (s : State),
    rolesAllowed s (roleFields (.xor d x y)) →
    ∃ t r, exec (.xor d x y) s = .next t ∧
      (∀ k : Nat, r.getLsbD k = ((s.readReg x).getLsbD k ^^ (s.readOperand y).getLsbD k)) ∧
      writesReg s t d r ∧
      t.flags.getLsbD 0 = Config.vdraw s.draws ∧ t.draws = s.draws + 1 ∧
      sameFlagsBut s t [0] ∧ t.pc = s.pc + 1 ∧ sameMemory s t ∧ sameTables s t ∧ t.stop = s.stop

/-- R111: `add rd, rd, ry` then `sub rd, rd, ry` restores every register but the flags and the pc, with
or without overflow. `ry` is not `rd` (the rule's condition) and is neither the flags nor the pc, whose
values the add itself changes (assumption log 8). -/
def Obligations.AddThenSubRestores : Prop :=
  ∀ (d y : Reg) (s : State), y ≠ d → y ≠ .flags → y ≠ .pc → rolesAllowed s [d, y] →
    ∃ t, execAll [.add d d (.reg y), .sub d d (.reg y)] s = .next t ∧ sameRegs s t ∧
      t.pc = s.pc + 2

/-! ## Memory -/

/-- R55: byte `k` of what MemRead returns is the byte at offset `a + k`, and its upper bytes are 0;
MemWrite sets the byte at offset `a + k` to byte `k` of the value and leaves every other byte. -/
def Obligations.DataIsLittleEndian : Prop :=
  (∀ (m : Memory) (a n k : Nat), n ≤ 8 → k < 8 →
    (m.readBytes a n).extractLsb' (8 * k) 8 = if k < n then m.read (a + k) else 0) ∧
  (∀ (m : Memory) (a n b : Nat) (v : Word), n ≤ 8 →
    (m.writeBytes a n v).read b =
      if a ≤ b ∧ b < a + n then v.extractLsb' (8 * (b - a)) 8 else m.read b)

/-- R56: a load of two bytes at `a + 1` after a write of eight bytes at `a` returns `v[23:8]`. -/
def Obligations.MixedWidthAccessSeesBytes : Prop :=
  ∀ (m : Memory) (a : Nat) (v : Word),
    (m.writeBytes a 8 v).readBytes (a + 1) 2 = (v.extractLsb' 8 16).setWidth 64

/-- R120: load. -/
def Obligations.LoadFollowsR120 : Prop :=
  (∀ (d x y : Nibble) (v : Imm16), decode (packFields 0x7 d x y v) =
    .ok (.load d (Reg.ofField x) (Operand.ofFields y v))) ∧
  ∀ (width : Nibble) (x : Reg) (y : Operand) (s : State),
    rolesAllowed s (roleFields (.load width x y)) →
    (4 ≤ width.toNat → exec (.load width x y) s = .next (trapTaken s .illegalOp)) ∧
    (width.toNat < 4 → s.segSize < (s.readOperand y).toNat + 2 ^ width.toNat →
      exec (.load width x y) s = .next (trapTaken s .segFault)) ∧
    (width.toNat < 4 → (s.readOperand y).toNat + 2 ^ width.toNat ≤ s.segSize →
      ∃ t r, exec (.load width x y) s = .next t ∧
        (∀ k : Nat, k < 8 → r.extractLsb' (8 * k) 8 =
          if k < 2 ^ width.toNat then s.seg.read ((s.readOperand y).toNat + k) else 0) ∧
        writesReg s t x r ∧
        t.flags = s.flags ∧ t.pc = s.pc + 1 ∧ sameMemory s t ∧ sameRest s t)

/-- R121: store; the bytes stored to are those at `rhs_y` and up, as many as the width. -/
def Obligations.StoreFollowsR121 : Prop :=
  (∀ (d x y : Nibble) (v : Imm16), decode (packFields 0x8 d x y v) =
    .ok (.store d (Reg.ofField x) (Operand.ofFields y v))) ∧
  ∀ (width : Nibble) (x : Reg) (y : Operand) (s : State),
    rolesAllowed s (roleFields (.store width x y)) →
    (4 ≤ width.toNat → exec (.store width x y) s = .next (trapTaken s .illegalOp)) ∧
    (width.toNat < 4 → s.segSize < (s.readOperand y).toNat + 2 ^ width.toNat →
      exec (.store width x y) s = .next (trapTaken s .segFault)) ∧
    (width.toNat < 4 → (s.readOperand y).toNat + 2 ^ width.toNat ≤ s.segSize →
      ∃ t, exec (.store width x y) s = .next t ∧
        (∀ k : Nat, k < 2 ^ width.toNat →
          t.seg.read ((s.readOperand y).toNat + k) = (s.readReg x).extractLsb' (8 * k) 8) ∧
        (∀ a : Nat, a < (s.readOperand y).toNat ∨ (s.readOperand y).toNat + 2 ^ width.toNat ≤ a →
          t.seg.read a = s.seg.read a) ∧
        sameRegs s t ∧ t.flags = s.flags ∧ t.pc = s.pc + 1 ∧ sameRest s t)

/-- R124: a load of the same width from the same address after a store returns the low bytes of the
stored register, zero-extended. -/
def Obligations.StoreThenLoadReturnsTheValue : Prop :=
  ∀ (width : Nibble) (x d : Reg) (y : Operand) (s : State),
    width.toNat < 4 → y ≠ .reg .pc → (s.readOperand y).toNat + 2 ^ width.toNat ≤ s.segSize →
    rolesAllowed s (roleFields (.store width x y)) → rolesAllowed s [d] →
    ∃ t, execAll [.store width x y, .load width d y] s = .next t ∧
      writesReg s t d
        (BitVec.ofNat 64 ((s.readReg x).toNat % 2 ^ (8 * 2 ^ width.toNat)))

/-! ## The Control-Transfer Unit -/

/-- R130: compare. -/
def Obligations.CompareFollowsR130 : Prop :=
  (∀ (d x y : Nibble) (v : Imm16), decode (packFields 0x9 d x y v) =
    .ok (.compare (Reg.ofField d) (Reg.ofField x) (Operand.ofFields y v))) ∧
  ∀ (d x : Reg) (y : Operand) (s : State),
    rolesAllowed s (roleFields (.compare d x y)) →
    ∃ t, exec (.compare d x y) s = .next t ∧
      writesReg s t d
        (if (s.readReg x).toInt < (s.readOperand y).toInt then BitVec.ofInt 64 (-1)
          else if (s.readReg x).toInt = (s.readOperand y).toInt then 0 else 1) ∧
      (t.flags.getLsbD 1 = true ↔ s.readReg x = s.readOperand y) ∧
      (t.flags.getLsbD 2 = true ↔ (s.readReg x).toInt < (s.readOperand y).toInt) ∧
      sameFlagsBut s t [1, 2] ∧ t.pc = s.pc + 1 ∧ sameMemory s t ∧ sameRest s t

/-- R78 after a compare: the conditions z, nz, n, nn and gt are taken exactly on equal, not equal, less,
not less and greater as signed numbers. -/
def Obligations.CompareThenBranchDecidesSignedOrder : Prop :=
  ∀ (d x : Reg) (y : Operand) (off : Imm16) (s : State),
    rolesAllowed s (roleFields (.compare d x y)) →
    ∀ (c : Nibble) (taken : Bool),
      (c, taken) ∈
        [(0x1, decide ((s.readReg x).toInt = (s.readOperand y).toInt)),
         (0x2, decide ((s.readReg x).toInt ≠ (s.readOperand y).toInt)),
         (0x5, decide ((s.readReg x).toInt < (s.readOperand y).toInt)),
         (0x6, decide ((s.readOperand y).toInt ≤ (s.readReg x).toInt)),
         (0x7, decide ((s.readOperand y).toInt < (s.readReg x).toInt))] →
      ∃ t, execAll [.compare d x y, .branch c (.imm off)] s = .next t ∧
        t.pc = if taken then s.pc + 1 + off.signExtend 64 else s.pc + 2

/-- R136: branch; the relative base is the branch's own pc, and nothing but the pc changes. -/
def Obligations.BranchFollowsR136 : Prop :=
  (∀ (d x y : Nibble) (v : Imm16), decode (packFields 0xA d x y v) =
    .ok (.branch d (Operand.ofFields y v))) ∧
  ∀ (c : Nibble) (y : Operand) (s : State),
    rolesAllowed s (roleFields (.branch c y)) →
    (8 ≤ c.toNat → exec (.branch c y) s = .next (trapTaken s .illegalOp)) ∧
    (c.toNat < 8 → exec (.branch c y) s = .next { s with pc := pcAfter (.branch c y) s })

/-- R140: move, bit by bit: an amount of 0 to 7, left where the selector's top bit is 0, right with
zeros filled in where it is 1. -/
def Obligations.MoveFollowsR140 : Prop :=
  (∀ (d x y : Nibble) (v : Imm16), decode (packFields 0xB d x y v) =
    .ok (.move (Reg.ofField d) (Operand.ofFields x v) y)) ∧
  ∀ (d : Reg) (x : Operand) (sh : Nibble) (s : State),
    rolesAllowed s (roleFields (.move d x sh)) →
    ∃ t r, exec (.move d x sh) s = .next t ∧
      (∀ k : Nat, k < 64 → r.getLsbD k =
        if sh.toNat < 8 then decide (sh.toNat ≤ k) && (s.readOperand x).getLsbD (k - sh.toNat)
        else (s.readOperand x).getLsbD (k + (sh.toNat - 8))) ∧
      writesReg s t d r ∧
      t.flags = s.flags ∧ t.pc = s.pc + 1 ∧ sameMemory s t ∧ sameRest s t

/-- R144: assign, bit by bit: bits `4x` to `4y + 3` from the value, zero-extended or cut to the range,
every other bit kept; an inverted range raises IllegalOp. -/
def Obligations.AssignFollowsR144 : Prop :=
  (∀ (d x y : Nibble) (v : Imm16), decode (packFields 0xC d x y v) =
    .ok (.assign (Reg.ofField d) x y v)) ∧
  ∀ (d : Reg) (x y : Nibble) (v : Imm16) (s : State),
    (y.toNat < x.toNat → exec (.assign d x y v) s = .next (trapTaken s .illegalOp)) ∧
    (rolesAllowed s (roleFields (.assign d x y v)) → x.toNat ≤ y.toNat →
      ∃ t r, exec (.assign d x y v) s = .next t ∧
        (∀ k : Nat, k < 64 → r.getLsbD k =
          if 4 * x.toNat ≤ k ∧ k ≤ 4 * y.toNat + 3 then v.getLsbD (k - 4 * x.toNat)
          else (s.readReg d).getLsbD k) ∧
        writesReg s t d r ∧
        t.flags = s.flags ∧ t.pc = s.pc + 1 ∧ sameMemory s t ∧ sameRest s t)

/-- R146: the four assigns of a 64-bit constant, in any order, give the constant whatever the register
held. -/
def Obligations.FourAssignsBuildAnyConstant : Prop :=
  ∀ (d : Reg) (k : Word) (parts : List Instr) (s : State),
    rolesAllowed s [d] → List.Perm parts (li64Parts d k) →
    ∃ t, execAll parts s = .next t ∧ writesReg s t d k ∧ t.flags = s.flags ∧ t.pc = s.pc + 4 ∧
      sameMemory s t ∧ sameRest s t

/-- R36: the pc after an instruction that raises no fault and runs no supplied handler. -/
def Obligations.PcMovesAsR36Says : Prop :=
  ∀ (i : Instr) (s : State), instrFault i s = none → ¬ runsHandler i s →
    ∃ t, exec i s = .next t ∧ t.pc = pcAfter i s

/-! ## interrupt and extended -/

/-- R150: interrupt: vector 0 halts and changes nothing else; any other vector jumps to its entry as it
stands and changes nothing else. -/
def Obligations.InterruptFollowsR150 : Prop :=
  (∀ (d x y : Nibble) (v : Imm16), decode (packFields 0xD d x y v) = .ok (.interrupt d)) ∧
  ∀ (n : Nibble) (s : State),
    (n = 0 → exec (.interrupt n) s = .next { s with stop := .halt }) ∧
    (n ≠ 0 → exec (.interrupt n) s = .next { s with pc := s.ivt[n.toNat]'n.isLt })

/-- R87, R153: `h_nop` moves the pc on by one; every code that a table leaves out, whatever else it
registers, holds it, so in the default table every code does; and an extended opcode that the table
leaves out, or whose entry is `h_nop`, advances the pc by one and changes nothing else. -/
def Obligations.UnregisteredExtendedOnlyAdvances : Prop :=
  (∀ (d x y : Nibble) (v : Imm16),
    decode (packFields 0xE d x y v) = .ok (.extended (x ++ y) d v)) ∧
  (∀ (d : Nibble) (v : Imm16) (m : MachineState),
    hNop.answer d v m = .next { m with pc := m.pc + 1 }) ∧
  (∀ (ext : ExtTable) (code : BitVec 8), (∀ e ∈ ext, e.1 ≠ code) → ext.handler code = hNop) ∧
  (∀ code : BitVec 8, State.reset.handler code = hNop) ∧
  (∀ (code : BitVec 8) (d : Nibble) (v : Imm16) (s : State), (∀ e ∈ s.ext, e.1 ≠ code) →
    exec (.extended code d v) s = .next { s with pc := s.pc + 1 }) ∧
  ∀ (code : BitVec 8) (d : Nibble) (v : Imm16) (s : State), s.handler code = hNop →
    exec (.extended code d v) s = .next { s with pc := s.pc + 1 }

/-- R152, R154: an extended opcode has the outcome of its handler on the whole MachineState: its fault is
raised, its next state is taken. With handlers that keep the contract, as every launch has them, that is
all; in any other state an answer that breaks the contract is refused, which is the model's choice
(assumption log 5; the reading of the contract: log 6). -/
def Obligations.RegisteredExtendedRunsItsHandler : Prop :=
  ∀ (code : BitVec 8) (d : Nibble) (v : Imm16) (s : State),
    let taken (m : MachineState) : State :=
      { s with gr := m.gr, flags := m.flags, pc := m.pc, seg := m.seg, ivt := m.ivt, stop := m.stop }
    let answer : HandlerOutcome := (s.handler code).answer d v
      { gr := s.gr, flags := s.flags, pc := s.pc, seg := s.seg, ivt := s.ivt, stop := s.stop }
    (exec (.extended code d v) s =
      match answer with
      | .fault k => .next (trapTaken s k)
      | .next m =>
        if handlerContract s.segSize s.policy s.machine m then .next (taken m)
        else .refused (.handlerBreaksContract code)) ∧
    (s.handlersKeepContract → exec (.extended code d v) s =
      match answer with
      | .fault k => .next (trapTaken s k)
      | .next m => .next (taken m))

/-! ## The register file -/

/-- R31: the register read rule. -/
def Obligations.RegisterReadFollowsR31 : Prop :=
  ∀ s : State,
    s.readReg .nul = 0 ∧ s.readReg .zero = 0 ∧ s.readReg .ones = BitVec.ofNat 64 (2 ^ 64 - 1) ∧
    s.readReg .flags = s.flags ∧ s.readReg .pc = s.pc ∧
    s.readReg .r1 = s.gr.r1 ∧ s.readReg .r2 = s.gr.r2 ∧ s.readReg .r3 = s.gr.r3 ∧
    s.readReg .r4 = s.gr.r4 ∧ s.readReg .r5 = s.gr.r5 ∧ s.readReg .r6 = s.gr.r6 ∧
    s.readReg .r7 = s.gr.r7 ∧ s.readReg .base = s.gr.base ∧ s.readReg .stack = s.gr.stack ∧
    s.readReg .r12 = s.gr.r12 ∧ s.readReg .r13 = s.gr.r13

/-- R32, R73: the only register, the flags and the pc apart, that an instruction can change is the
storage register its destination field names; a destination that is a constant, the flags or the pc is
discarded. -/
def Obligations.OnlyAStorageDestinationChanges : Prop :=
  ∀ (i : Instr) (s t : State) (r : Reg), exec i s = .next t → ¬ runsHandler i s →
    r ≠ .flags → r ≠ .pc → t.readReg r ≠ s.readReg r →
    destField i = some r ∧ isStorage r = true

/-! ## The whole machine -/

/-- R39: which instructions may change which flags bits; a faulting instruction changes none. That a
supplied handler keeps bits 63:3 is a reading of its contract (assumption log 6). -/
def Obligations.FlagsChangeOnlyByTheirWriters : Prop :=
  ∀ (i : Instr) (s t : State), exec i s = .next t →
    (t.flags >>> 3 = s.flags >>> 3) ∧
    (instrFault i s ≠ none → t.flags = s.flags) ∧
    (¬ runsHandler i s →
      (t.flags.getLsbD 1 = s.flags.getLsbD 1 ∧ t.flags.getLsbD 2 = s.flags.getLsbD 2 ∨
        ∃ d x y, i = .compare d x y) ∧
      (t.flags.getLsbD 0 = s.flags.getLsbD 0 ∨
        i.opcode.toNat ≤ 6))

/-- R39: the only readers of the flags are the branch conditions and the instructions that read index 14
as an operand: any other instruction, a supplied handler apart, does the same whatever the flags hold,
the flags themselves apart. -/
def Obligations.OnlyFlagReadersDependOnTheFlags : Prop :=
  ∀ (i : Instr) (s t : State) (f : Word), readsFlags i = false → ¬ runsHandler i s →
    exec i s = .next t → ∃ g, exec i { s with flags := f } = .next { t with flags := g }

/-- R43, R44, R46, R47: no step changes the vector table, the program, the segment's size, the policy or
the Extended Dispatch Table. -/
def Obligations.StepKeepsTablesAndLaunchInputs : Prop :=
  ∀ s t : State, step s = .next t → sameTables s t

/-- R45, R50: the only instruction that changes a byte of the segment is store, at the bytes it stores
to, and a supplied handler. -/
def Obligations.OnlyStoreChangesTheSegment : Prop :=
  ∀ (i : Instr) (s t : State) (a : Nat), exec i s = .next t → t.seg.read a ≠ s.seg.read a →
    runsHandler i s ∨
    ∃ width x y, i = .store width x y ∧ width.toNat < 4 ∧
      (s.readOperand y).toNat ≤ a ∧ a < (s.readOperand y).toNat + 2 ^ width.toNat

/-- R40, R175: a running machine stops only by executing `interrupt #0` or by a fault whose vector entry
is 0, and its stop value says which. -/
def Obligations.MachineStopsOnlyByHaltOrUnhandledFault : Prop :=
  ∀ s t : State, s.stop = .running → step s = .next t → t.stop ≠ .running →
    t.pc = s.pc ∧
    ((t.stop = .halt ∧ stepFault s = none ∧
        ∃ w, s.prog[s.pc.toNat]? = some w ∧ decode w = .ok (.interrupt 0)) ∨
      (t.stop = .faultSegv ∧ stepFault s = some .segFault ∧ s.ivt[1] = 0) ∨
      (t.stop = .faultIllegal ∧ stepFault s = some .illegalOp ∧ s.ivt[2] = 0))

/-- R197, R198: a run that has stopped under some fuel ends in the same state under any more fuel. -/
def Obligations.MoreFuelKeepsTheEndOfARun : Prop :=
  ∀ (fuel more : Nat) (s t : State), run fuel s = .stopped t →
    run (fuel + more) s = .stopped t ∧ t.stop ≠ .running

/-! ## Reset and the invariant -/

/-- R190, R48: the machine a launch creates, for every launch whose SEG_SIZE is in range and whose
handlers keep their contract (its reading: assumption log 6). -/
def Obligations.LaunchCreatesTheStateOfR190 : Prop :=
  ∀ l : Launch, l.segSize ≤ 2 ^ 64 →
    (∀ code : BitVec 8, (l.extHandlers.handler code).keepsContract l.segSize l.policy = true) →
    ∃ s, launch l = .ok s ∧
      (∀ r : Reg, s.readReg r = if r = .ones then BitVec.allOnes 64 else 0) ∧
      s.flags = 0 ∧ s.pc = 0 ∧ (∀ a, s.seg.read a = 0) ∧ s.vector 0 = 0 ∧
      (∀ n : Nibble, n ≠ 0 → s.vector n = l.ivtInit[n.toNat]'n.isLt) ∧
      s.stop = .running ∧ s.prog = l.prog ∧ s.segSize = l.segSize ∧ s.policy = l.policy ∧
      s.ext = l.extHandlers

/-- R48, R67: a launch whose SEG_SIZE is over 2^64 is refused before the first step. -/
def Obligations.OversizedLaunchIsRefused : Prop :=
  ∀ l : Launch, 2 ^ 64 < l.segSize → launch l = .error (.segSizeOutOfRange l.segSize)

/-- R6, R190: `State.reset` is the machine of a launch with the defaults of R6 and the empty program
(assumption log 1), and it satisfies the invariant. -/
def Obligations.ResetIsTheDefaultLaunchAndMeetsInv : Prop :=
  launch defaultLaunch = .ok State.reset ∧ State.reset.Inv

/-- R38, R43, R45, R20: the invariant holds after every step from every state in which it holds. That the
segment is kept as a rising list without zero bytes is the model's form of it (assumption log 9), and
that registers 12 and 13 keep their reset value under `strict` is deduced (assumption log 7); for a
supplied handler it rests on the reading of its contract (assumption log 6). -/
def Obligations.EveryStepKeepsInv : Prop :=
  ∀ s t : State, s.Inv → step s = .next t → t.Inv

/-! ## Extended handlers -/

/-- R154, R155: every total deterministic function of `(d, v, MachineState)` can be supplied as a handler:
some table answers as it does on every MachineState with a segment of `SEG_SIZE` bytes, and passes the
launch's check where the function keeps the contract. Tables are the model's form of a handler
(assumption log 5); the reading of the contract is log 6. -/
def Obligations.EveryHandlerFunctionHasATable : Prop :=
  ∀ (size : Nat) (policy : ReservedPolicy)
    (f : Nibble → Imm16 → MachineState → HandlerOutcome),
    ∃ h : Handler,
      (∀ d v m, m.segFits size → h.answer d v m = f d v m) ∧
      ((∀ d v m m', m.segFits size → f d v m = .next m' → handlerContract size policy m m') →
        h.keepsContract size policy = true)

/-- R48, I20: a launch with a handler that breaks R154 on some input is refused before the first step,
with a code whose handler does; a launch whose handlers keep it is not refused for a handler. The
reading of the contract is that of assumption log 6. -/
def Obligations.LaunchRefusesExactlyHandlersThatBreakR154 : Prop :=
  ∀ l : Launch, l.segSize ≤ 2 ^ 64 →
    ((∃ s, launch l = .ok s) ↔
      ∀ (code : BitVec 8) d v m m', (l.extHandlers.handler code).answer d v m = .next m' →
        handlerContract l.segSize l.policy m m') ∧
    ((∃ s, launch l = .ok s) ∨
      ∃ code d v m m', launch l = .error (.handlerBreaksContract code) ∧
        (l.extHandlers.handler code).answer d v m = .next m' ∧
        ¬ handlerContract l.segSize l.policy m m')

/-- R193, R48: every machine a launch creates satisfies the invariant, and a running machine that
satisfies it always takes a step to a next state: none is refused, whatever it executes. For supplied
handlers it rests on the reading of their contract (assumption log 6). -/
def Obligations.LaunchedMachineAlwaysSteps : Prop :=
  (∀ (l : Launch) (s : State), launch l = .ok s → s.Inv) ∧
  ∀ s : State, s.Inv → s.stop = .running → ∃ t, step s = .next t

/-- R44, R152, R155: the handler looked up for a code is the one registered for it: the entry of that
code, past any entries of other codes; and `extended` in a machine whose handlers keep their contract
has that handler's outcome. That of two entries for one code, and of two values listed for one input,
the first counts is the model's choice (assumption log 5); the reading of the contract is log 6. -/
def Obligations.RegisteredHandlerIsTheOneDispatched : Prop :=
  (∀ (ext : ExtTable) (code : BitVec 8) (h : Handler),
    ExtTable.handler ((code, h) :: ext) code = h) ∧
  (∀ (ext : ExtTable) (c code : BitVec 8) (h : Handler), c ≠ code →
    ExtTable.handler ((c, h) :: ext) code = ext.handler code) ∧
  (∀ (h : Handler) (r : HandlerRow), Handler.answer (r :: h) r.d r.v r.machine = r.outcome) ∧
  (∀ (h : Handler) (r : HandlerRow) (d : Nibble) (v : Imm16) (m : MachineState),
    ¬ (r.d = d ∧ r.v = v ∧ r.machine = m) →
    Handler.answer (r :: h) d v m = h.answer d v m) ∧
  ∀ (before after : ExtTable) (code : BitVec 8) (h : Handler) (d : Nibble) (v : Imm16) (s : State),
    s.ext = before ++ (code, h) :: after → (∀ e ∈ before, e.1 ≠ code) → s.handlersKeepContract →
    exec (.extended code d v) s =
      match h.answer d v
          { gr := s.gr, flags := s.flags, pc := s.pc, seg := s.seg, ivt := s.ivt, stop := s.stop } with
      | .fault k => .next (trapTaken s k)
      | .next m =>
        .next { s with gr := m.gr, flags := m.flags, pc := m.pc, seg := m.seg, ivt := m.ivt
                       stop := m.stop }
end

