-- ==== Sys2Proof/Laws/Decode.lean ====
section
/-! SUPPORT. The fields of a packed word, registers and operands through their fields, and words through
their bytes: the pieces a round trip of decoder and encoder is made of. -/

namespace Sys2Proof

@[simp] theorem Reg.ofField_toField (r : Reg) : Reg.ofField r.toField = r := by
  cases r <;> rfl

@[simp] theorem Reg.toField_ofField (n : Nibble) : (Reg.ofField n).toField = n := by
  revert n; decide

theorem Reg.toField_eq_zero_iff (r : Reg) : r.toField = 0 ↔ r = .nul := by
  cases r <;> decide

section
variable (op d x y : Nibble) (v : Imm16)

@[simp] theorem fieldOp_packFields : fieldOp (packFields op d x y v) = op := by
  apply BitVec.eq_of_getLsbD_eq
  intro i hi
  simp only [fieldOp, packFields, BitVec.getLsbD_extractLsb', BitVec.getLsbD_append]
  simp [hi]

@[simp] theorem fieldD_packFields : fieldD (packFields op d x y v) = d := by
  apply BitVec.eq_of_getLsbD_eq
  intro i hi
  simp only [fieldD, packFields, BitVec.getLsbD_extractLsb', BitVec.getLsbD_append]
  simp [hi]

@[simp] theorem fieldX_packFields : fieldX (packFields op d x y v) = x := by
  apply BitVec.eq_of_getLsbD_eq
  intro i hi
  have h1 : ¬ 8 + i < 4 := by omega
  have h2 : ¬ 8 + i - 4 < 4 := by omega
  have h3 : 8 + i - 4 - 4 = i := by omega
  simp only [fieldX, packFields, BitVec.getLsbD_extractLsb', BitVec.getLsbD_append]
  simp [hi, h1, h2, h3]

@[simp] theorem fieldY_packFields : fieldY (packFields op d x y v) = y := by
  apply BitVec.eq_of_getLsbD_eq
  intro i hi
  have h1 : ¬ 12 + i < 4 := by omega
  have h2 : ¬ 12 + i - 4 < 4 := by omega
  have h3 : ¬ 12 + i - 4 - 4 < 4 := by omega
  have h4 : 12 + i - 4 - 4 - 4 = i := by omega
  simp only [fieldY, packFields, BitVec.getLsbD_extractLsb', BitVec.getLsbD_append]
  simp [hi, h1, h2, h3, h4]

@[simp] theorem fieldV_packFields : fieldV (packFields op d x y v) = v := by
  apply BitVec.eq_of_getLsbD_eq
  intro i hi
  have h1 : ¬ 16 + i < 4 := by omega
  have h2 : ¬ 16 + i - 4 < 4 := by omega
  have h3 : ¬ 16 + i - 4 - 4 < 4 := by omega
  have h4 : ¬ 16 + i - 4 - 4 - 4 < 4 := by omega
  have h5 : 16 + i - 4 - 4 - 4 - 4 = i := by omega
  simp only [fieldV, packFields, BitVec.getLsbD_extractLsb', BitVec.getLsbD_append]
  simp [hi, h1, h2, h3, h4, h5]

end

/-- A word is the packing of its five fields (R71). -/
theorem packFields_fields (w : InstrWord) :
    packFields (fieldOp w) (fieldD w) (fieldX w) (fieldY w) (fieldV w) = w := by
  apply BitVec.eq_of_getLsbD_eq
  intro i hi
  simp only [packFields, fieldOp, fieldD, fieldX, fieldY, fieldV, BitVec.getLsbD_append,
    BitVec.getLsbD_extractLsb']
  by_cases h1 : i < 4
  · simp [h1]
  by_cases h2 : i - 4 < 4
  · have : 4 + (i - 4) = i := by omega
    simp [h1, h2, this]
  by_cases h3 : i - 4 - 4 < 4
  · have : 8 + (i - 4 - 4) = i := by omega
    simp [h1, h2, h3, this]
  by_cases h4 : i - 4 - 4 - 4 < 4
  · have : 12 + (i - 4 - 4 - 4) = i := by omega
    simp [h1, h2, h3, h4, this]
  · have h5 : 16 + (i - 4 - 4 - 4 - 4) = i := by omega
    have h6 : i - 4 - 4 - 4 - 4 < 16 := by omega
    simp [h1, h2, h3, h4, h5, h6]

/-- An encodable operand is read back from its two fields (R74). -/
theorem Operand.ofFields_fields {y : Operand} (h : y.wellFormed) :
    Operand.ofFields y.selField y.immField = y := by
  cases y with
  | imm v => rfl
  | reg r =>
    have hr : r ≠ .nul := by simpa [Operand.wellFormed] using h
    rw [Operand.ofFields, Operand.selField, if_neg (mt (Reg.toField_eq_zero_iff r).mp hr),
      Reg.ofField_toField]

theorem Operand.ofFields_wellFormed (sel : Nibble) (v : Imm16) :
    (Operand.ofFields sel v).wellFormed := by
  unfold Operand.ofFields
  by_cases h : sel = 0
  · simp [h, Operand.wellFormed]
  · have : Reg.ofField sel ≠ .nul := fun hn => h (by rw [← Reg.toField_ofField sel, hn]; rfl)
    rw [if_neg h]
    simp [Operand.wellFormed, this]

@[simp] theorem Operand.selField_ofFields (sel : Nibble) (v : Imm16) :
    (Operand.ofFields sel v).selField = sel := by
  unfold Operand.ofFields
  by_cases h : sel = 0
  · simp [h, Operand.selField]
  · rw [if_neg h]
    exact Reg.toField_ofField sel

@[simp] theorem Operand.immField_ofFields (sel : Nibble) (v : Imm16) :
    (Operand.ofFields sel v).immField = if sel = 0 then v else 0 := by
  unfold Operand.ofFields
  by_cases h : sel = 0
  · simp [h, Operand.immField]
  · rw [if_neg h, if_neg h]
    rfl

/-- A word is read back from its four bytes (R65). -/
@[simp] theorem wordOfBytes_bytes (w : InstrWord) :
    wordOfBytes (w.extractLsb' 0 8) (w.extractLsb' 8 8) (w.extractLsb' 16 8) (w.extractLsb' 24 8)
      = w := by
  apply BitVec.eq_of_getLsbD_eq
  intro i hi
  simp only [wordOfBytes, BitVec.getLsbD_append, BitVec.getLsbD_extractLsb']
  by_cases h1 : i < 8
  · simp [h1]
  by_cases h2 : i - 8 < 8
  · have : 8 + (i - 8) = i := by omega
    simp [h1, h2, this]
  by_cases h3 : i - 8 - 8 < 8
  · have : 16 + (i - 8 - 8) = i := by omega
    simp [h1, h2, h3, this]
  · have h4 : 24 + (i - 8 - 8 - 8) = i := by omega
    have h5 : i - 8 - 8 - 8 < 8 := by omega
    simp [h1, h2, h3, h4, h5]

/-- The bytes of one word decode to what the word decodes to. -/
theorem decodeBytes_wordToBytes (w : InstrWord) (rest : List Byte) :
    decodeBytes (wordToBytes w ++ rest) =
      match decode w with
      | .ok i => .ok (i, rest)
      | .error e => .error e := by
  cases hd : decode w <;>
    simp only [wordToBytes, List.cons_append, List.nil_append, decodeBytes, wordOfBytes_bytes, hd]

end Sys2Proof
end

