-- ==== Sys2Proof/Laws/Handler.lean ====
section
/-! SUPPORT. The Extended Dispatch Table: what a handler's table answers, and what the handler contract
says of it as a function. -/

namespace Sys2Proof.Machine

/-! ## Handlers as functions -/

@[simp] theorem Handler.answer_hNop (d : Nibble) (v : Imm16) (m : MachineState) :
    hNop.answer d v m = nopOutcome m := rfl

/-- A handler answers one of its own values, listed for the input, or as `h_nop`. -/
theorem Handler.answer_cases (h : Handler) (d : Nibble) (v : Imm16) (m : MachineState) :
    (∃ r ∈ h, r.d = d ∧ r.v = v ∧ r.machine = m) ∨ h.answer d v m = nopOutcome m := by
  induction h with
  | nil => exact .inr rfl
  | cons r h ih =>
    by_cases hr : r.d = d ∧ r.v = v ∧ r.machine = m
    · exact .inl ⟨r, List.mem_cons_self, hr⟩
    · rcases ih with ⟨q, hq, he⟩ | he
      · exact .inl ⟨q, List.mem_cons_of_mem _ hq, he⟩
      · exact .inr ((if_neg hr).trans he)

/-- The table of a function answers as the function does, on the inputs it was made from. -/
theorem Handler.answer_ofFun (f : Nibble → Imm16 → MachineState → HandlerOutcome)
    {inputs : List (Nibble × Imm16 × MachineState)} {d : Nibble} {v : Imm16} {m : MachineState}
    (h : (d, v, m) ∈ inputs) : (Handler.ofFun f inputs).answer d v m = f d v m := by
  induction inputs with
  | nil => cases h
  | cons i inputs ih =>
    simp only [Handler.ofFun, List.map_cons, Handler.answer]
    by_cases hi : i.1 = d ∧ i.2.1 = v ∧ i.2.2 = m
    · obtain ⟨rfl, rfl, rfl⟩ := hi
      exact if_pos ⟨rfl, rfl, rfl⟩
    · rw [if_neg hi]
      rcases List.mem_cons.mp h with rfl | h
      · exact absurd ⟨rfl, rfl, rfl⟩ hi
      · exact ih h

/-! ## The contract -/

/-- `h_nop` keeps the contract everywhere (R153, R154). -/
theorem handlerContract_nop (size : Nat) (policy : ReservedPolicy) (m : MachineState) :
    handlerContract size policy m { m with pc := m.pc + 1 } :=
  ⟨rfl, rfl, rfl, fun _ => ⟨rfl, rfl⟩, id⟩

/-- The check on a handler's table is the contract of R154 on every input of its function. -/
theorem Handler.keepsContract_iff {size : Nat} {policy : ReservedPolicy} {h : Handler} :
    h.keepsContract size policy = true ↔
      ∀ d v m m', h.answer d v m = .next m' → handlerContract size policy m m' := by
  constructor
  · intro hk d v m m' ha
    rcases h.answer_cases d v m with ⟨r, hr, rfl, rfl, rfl⟩ | hn
    · have hk := List.all_eq_true.mp hk r hr
      rw [ha] at hk
      exact of_decide_eq_true hk
    · cases hn.symm.trans ha
      exact handlerContract_nop size policy m
  · intro hk
    refine List.all_eq_true.mpr fun r _ => ?_
    cases ha : h.answer r.d r.v r.machine with
    | fault k => rfl
    | next m' => exact decide_eq_true (hk _ _ _ _ ha)

@[simp] theorem hNop_keepsContract (size : Nat) (policy : ReservedPolicy) :
    hNop.keepsContract size policy = true := rfl

/-! ## The table and the check of a launch -/

/-- A code has the no-op handler, or it is registered. -/
theorem ExtTable.handler_cases (ext : ExtTable) (code : BitVec 8) :
    ext.handler code = hNop ∨ ∃ entry ∈ ext, entry.1 = code := by
  induction ext with
  | nil => exact .inl rfl
  | cons e ext ih =>
    by_cases he : e.1 = code
    · exact .inr ⟨e, List.mem_cons_self, he⟩
    · rcases ih with hn | ⟨q, hq, hc⟩
      · exact .inl ((if_neg he).trans hn)
      · exact .inr ⟨q, List.mem_cons_of_mem _ hq, hc⟩

/-- A code that a table leaves out has the no-op handler (R153). -/
theorem ExtTable.handler_of_left_out {ext : ExtTable} {code : BitVec 8}
    (h : ∀ e ∈ ext, e.1 ≠ code) : ext.handler code = hNop :=
  (ext.handler_cases code).resolve_right fun ⟨e, he, hc⟩ => h e he hc

/-- Entries of other codes are passed over. -/
theorem ExtTable.handler_append {before : ExtTable} {code : BitVec 8} (after : ExtTable)
    (h : ∀ e ∈ before, e.1 ≠ code) : ExtTable.handler (before ++ after) code = after.handler code := by
  induction before with
  | nil => rfl
  | cons e before ih =>
    exact (if_neg (h e List.mem_cons_self)).trans (ih fun q hq => h q (List.mem_cons_of_mem _ hq))

/-- Where the handlers of the registered codes keep the contract, those of all codes do. -/
theorem ExtTable.keepsContract_of_entries {size : Nat} {policy : ReservedPolicy} {ext : ExtTable}
    (h : ∀ entry ∈ ext, (ext.handler entry.1).keepsContract size policy = true) (code : BitVec 8) :
    (ext.handler code).keepsContract size policy = true := by
  rcases ext.handler_cases code with hn | ⟨entry, he, rfl⟩
  · rw [hn]; rfl
  · exact h entry he

/-- The check finds nothing exactly where the handlers of the registered codes keep the contract. -/
theorem ExtTable.broken_eq_none_iff {size : Nat} {policy : ReservedPolicy} {ext : ExtTable} :
    ext.broken size policy = none ↔
      ∀ entry ∈ ext, (ext.handler entry.1).keepsContract size policy = true := by
  simp [ExtTable.broken]

/-- The code the check finds is one whose handler breaks the contract. -/
theorem ExtTable.not_keepsContract_of_broken {size : Nat} {policy : ReservedPolicy} {ext : ExtTable}
    {code : BitVec 8} (h : ext.broken size policy = some code) :
    (ext.handler code).keepsContract size policy = false := by
  simpa using List.find?_some h

end Sys2Proof.Machine
end

