-- ==== Sys2Proof/Laws/State.lean ====
section
/-! SUPPORT. One lemma per field per update of the state, so that no later proof unfolds a record
update, and the registers read after each update. -/

namespace Sys2Proof.Machine

variable (s : State)

/-! ### writeReg -/

@[simp] theorem writeReg_flags (r : Reg) (v : Word) : (s.writeReg r v).flags = s.flags := rfl
@[simp] theorem writeReg_pc (r : Reg) (v : Word) : (s.writeReg r v).pc = s.pc := rfl
@[simp] theorem writeReg_seg (r : Reg) (v : Word) : (s.writeReg r v).seg = s.seg := rfl
@[simp] theorem writeReg_ivt (r : Reg) (v : Word) : (s.writeReg r v).ivt = s.ivt := rfl
@[simp] theorem writeReg_stop (r : Reg) (v : Word) : (s.writeReg r v).stop = s.stop := rfl
@[simp] theorem writeReg_prog (r : Reg) (v : Word) : (s.writeReg r v).prog = s.prog := rfl
@[simp] theorem writeReg_segSize (r : Reg) (v : Word) : (s.writeReg r v).segSize = s.segSize := rfl
@[simp] theorem writeReg_policy (r : Reg) (v : Word) : (s.writeReg r v).policy = s.policy := rfl
@[simp] theorem writeReg_ext (r : Reg) (v : Word) : (s.writeReg r v).ext = s.ext := rfl
@[simp] theorem writeReg_draws (r : Reg) (v : Word) : (s.writeReg r v).draws = s.draws := rfl
@[simp] theorem writeReg_gr (r : Reg) (v : Word) : (s.writeReg r v).gr = writeGpr s.gr v r := rfl

/-! ### setFlags -/

@[simp] theorem setFlags_flags (f : Word) : (s.setFlags f).flags = f := rfl
@[simp] theorem setFlags_pc (f : Word) : (s.setFlags f).pc = s.pc := rfl
@[simp] theorem setFlags_seg (f : Word) : (s.setFlags f).seg = s.seg := rfl
@[simp] theorem setFlags_ivt (f : Word) : (s.setFlags f).ivt = s.ivt := rfl
@[simp] theorem setFlags_stop (f : Word) : (s.setFlags f).stop = s.stop := rfl
@[simp] theorem setFlags_prog (f : Word) : (s.setFlags f).prog = s.prog := rfl
@[simp] theorem setFlags_segSize (f : Word) : (s.setFlags f).segSize = s.segSize := rfl
@[simp] theorem setFlags_policy (f : Word) : (s.setFlags f).policy = s.policy := rfl
@[simp] theorem setFlags_ext (f : Word) : (s.setFlags f).ext = s.ext := rfl
@[simp] theorem setFlags_draws (f : Word) : (s.setFlags f).draws = s.draws := rfl
@[simp] theorem setFlags_gr (f : Word) : (s.setFlags f).gr = s.gr := rfl

/-! ### setV -/

@[simp] theorem setV_flags (b : Bool) : (s.setV b).flags = withV s.flags b := rfl
@[simp] theorem setV_pc (b : Bool) : (s.setV b).pc = s.pc := rfl
@[simp] theorem setV_seg (b : Bool) : (s.setV b).seg = s.seg := rfl
@[simp] theorem setV_ivt (b : Bool) : (s.setV b).ivt = s.ivt := rfl
@[simp] theorem setV_stop (b : Bool) : (s.setV b).stop = s.stop := rfl
@[simp] theorem setV_prog (b : Bool) : (s.setV b).prog = s.prog := rfl
@[simp] theorem setV_segSize (b : Bool) : (s.setV b).segSize = s.segSize := rfl
@[simp] theorem setV_policy (b : Bool) : (s.setV b).policy = s.policy := rfl
@[simp] theorem setV_ext (b : Bool) : (s.setV b).ext = s.ext := rfl
@[simp] theorem setV_draws (b : Bool) : (s.setV b).draws = s.draws := rfl
@[simp] theorem setV_gr (b : Bool) : (s.setV b).gr = s.gr := rfl

/-! ### drawV -/

@[simp] theorem drawV_flags : (s.drawV).flags = withV s.flags (Config.vdraw s.draws) := rfl
@[simp] theorem drawV_pc : (s.drawV).pc = s.pc := rfl
@[simp] theorem drawV_seg : (s.drawV).seg = s.seg := rfl
@[simp] theorem drawV_ivt : (s.drawV).ivt = s.ivt := rfl
@[simp] theorem drawV_stop : (s.drawV).stop = s.stop := rfl
@[simp] theorem drawV_prog : (s.drawV).prog = s.prog := rfl
@[simp] theorem drawV_segSize : (s.drawV).segSize = s.segSize := rfl
@[simp] theorem drawV_policy : (s.drawV).policy = s.policy := rfl
@[simp] theorem drawV_ext : (s.drawV).ext = s.ext := rfl
@[simp] theorem drawV_draws : (s.drawV).draws = s.draws + 1 := rfl
@[simp] theorem drawV_gr : (s.drawV).gr = s.gr := rfl

/-! ### setPc -/

@[simp] theorem setPc_flags (t : Word) : (s.setPc t).flags = s.flags := rfl
@[simp] theorem setPc_pc (t : Word) : (s.setPc t).pc = t := rfl
@[simp] theorem setPc_seg (t : Word) : (s.setPc t).seg = s.seg := rfl
@[simp] theorem setPc_ivt (t : Word) : (s.setPc t).ivt = s.ivt := rfl
@[simp] theorem setPc_stop (t : Word) : (s.setPc t).stop = s.stop := rfl
@[simp] theorem setPc_prog (t : Word) : (s.setPc t).prog = s.prog := rfl
@[simp] theorem setPc_segSize (t : Word) : (s.setPc t).segSize = s.segSize := rfl
@[simp] theorem setPc_policy (t : Word) : (s.setPc t).policy = s.policy := rfl
@[simp] theorem setPc_ext (t : Word) : (s.setPc t).ext = s.ext := rfl
@[simp] theorem setPc_draws (t : Word) : (s.setPc t).draws = s.draws := rfl
@[simp] theorem setPc_gr (t : Word) : (s.setPc t).gr = s.gr := rfl

/-! ### advance -/

@[simp] theorem advance_flags : (s.advance).flags = s.flags := rfl
@[simp] theorem advance_pc : (s.advance).pc = s.pc + 1 := rfl
@[simp] theorem advance_seg : (s.advance).seg = s.seg := rfl
@[simp] theorem advance_ivt : (s.advance).ivt = s.ivt := rfl
@[simp] theorem advance_stop : (s.advance).stop = s.stop := rfl
@[simp] theorem advance_prog : (s.advance).prog = s.prog := rfl
@[simp] theorem advance_segSize : (s.advance).segSize = s.segSize := rfl
@[simp] theorem advance_policy : (s.advance).policy = s.policy := rfl
@[simp] theorem advance_ext : (s.advance).ext = s.ext := rfl
@[simp] theorem advance_draws : (s.advance).draws = s.draws := rfl
@[simp] theorem advance_gr : (s.advance).gr = s.gr := rfl

/-! ### storeBytes -/

@[simp] theorem storeBytes_flags (a : Word) (w : Nat) (v : Word) : (s.storeBytes a w v).flags = s.flags := rfl
@[simp] theorem storeBytes_pc (a : Word) (w : Nat) (v : Word) : (s.storeBytes a w v).pc = s.pc := rfl
@[simp] theorem storeBytes_seg (a : Word) (w : Nat) (v : Word) : (s.storeBytes a w v).seg = s.seg.writeBytes a.toNat w v := rfl
@[simp] theorem storeBytes_ivt (a : Word) (w : Nat) (v : Word) : (s.storeBytes a w v).ivt = s.ivt := rfl
@[simp] theorem storeBytes_stop (a : Word) (w : Nat) (v : Word) : (s.storeBytes a w v).stop = s.stop := rfl
@[simp] theorem storeBytes_prog (a : Word) (w : Nat) (v : Word) : (s.storeBytes a w v).prog = s.prog := rfl
@[simp] theorem storeBytes_segSize (a : Word) (w : Nat) (v : Word) : (s.storeBytes a w v).segSize = s.segSize := rfl
@[simp] theorem storeBytes_policy (a : Word) (w : Nat) (v : Word) : (s.storeBytes a w v).policy = s.policy := rfl
@[simp] theorem storeBytes_ext (a : Word) (w : Nat) (v : Word) : (s.storeBytes a w v).ext = s.ext := rfl
@[simp] theorem storeBytes_draws (a : Word) (w : Nat) (v : Word) : (s.storeBytes a w v).draws = s.draws := rfl
@[simp] theorem storeBytes_gr (a : Word) (w : Nat) (v : Word) : (s.storeBytes a w v).gr = s.gr := rfl

/-! ### halt -/

@[simp] theorem halt_flags : (s.halt).flags = s.flags := rfl
@[simp] theorem halt_pc : (s.halt).pc = s.pc := rfl
@[simp] theorem halt_seg : (s.halt).seg = s.seg := rfl
@[simp] theorem halt_ivt : (s.halt).ivt = s.ivt := rfl
@[simp] theorem halt_stop : (s.halt).stop = .halt := rfl
@[simp] theorem halt_prog : (s.halt).prog = s.prog := rfl
@[simp] theorem halt_segSize : (s.halt).segSize = s.segSize := rfl
@[simp] theorem halt_policy : (s.halt).policy = s.policy := rfl
@[simp] theorem halt_ext : (s.halt).ext = s.ext := rfl
@[simp] theorem halt_draws : (s.halt).draws = s.draws := rfl
@[simp] theorem halt_gr : (s.halt).gr = s.gr := rfl

/-! ### withMachine -/

@[simp] theorem withMachine_flags (m : MachineState) : (s.withMachine m).flags = m.flags := rfl
@[simp] theorem withMachine_pc (m : MachineState) : (s.withMachine m).pc = m.pc := rfl
@[simp] theorem withMachine_seg (m : MachineState) : (s.withMachine m).seg = m.seg := rfl
@[simp] theorem withMachine_ivt (m : MachineState) : (s.withMachine m).ivt = m.ivt := rfl
@[simp] theorem withMachine_stop (m : MachineState) : (s.withMachine m).stop = m.stop := rfl
@[simp] theorem withMachine_prog (m : MachineState) : (s.withMachine m).prog = s.prog := rfl
@[simp] theorem withMachine_segSize (m : MachineState) : (s.withMachine m).segSize = s.segSize := rfl
@[simp] theorem withMachine_policy (m : MachineState) : (s.withMachine m).policy = s.policy := rfl
@[simp] theorem withMachine_ext (m : MachineState) : (s.withMachine m).ext = s.ext := rfl
@[simp] theorem withMachine_draws (m : MachineState) : (s.withMachine m).draws = s.draws := rfl
@[simp] theorem withMachine_handler (m : MachineState) (code : BitVec 8) :
    (s.withMachine m).handler code = s.handler code := rfl
@[simp] theorem withMachine_machine (m : MachineState) : (s.withMachine m).machine = m := rfl
@[simp] theorem withMachine_gr (m : MachineState) : (s.withMachine m).gr = m.gr := rfl

/-! ### machine -/

@[simp] theorem machine_gr : s.machine.gr = s.gr := rfl
@[simp] theorem machine_flags : s.machine.flags = s.flags := rfl
@[simp] theorem machine_pc : s.machine.pc = s.pc := rfl
@[simp] theorem machine_seg : s.machine.seg = s.seg := rfl
@[simp] theorem machine_ivt : s.machine.ivt = s.ivt := rfl
@[simp] theorem machine_stop : s.machine.stop = s.stop := rfl

/-! ### vector, readReg and readOperand see only what they name -/

@[simp] theorem writeReg_vector (r : Reg) (v : Word) (n : Nibble) :
    (s.writeReg r v).vector n = s.vector n := rfl
@[simp] theorem setFlags_vector (f : Word) (n : Nibble) : (s.setFlags f).vector n = s.vector n := rfl
@[simp] theorem setV_vector (b : Bool) (n : Nibble) : (s.setV b).vector n = s.vector n := rfl
@[simp] theorem drawV_vector (n : Nibble) : s.drawV.vector n = s.vector n := rfl
@[simp] theorem setPc_vector (t : Word) (n : Nibble) : (s.setPc t).vector n = s.vector n := rfl
@[simp] theorem advance_vector (n : Nibble) : s.advance.vector n = s.vector n := rfl
@[simp] theorem storeBytes_vector (a : Word) (w : Nat) (v : Word) (n : Nibble) :
    (s.storeBytes a w v).vector n = s.vector n := rfl
@[simp] theorem halt_vector (n : Nibble) : s.halt.vector n = s.vector n := rfl

/-- The registers but the flags and the pc depend on the storage registers alone. -/
theorem readReg_congr_gr {s t : State} (h : t.gr = s.gr) {r : Reg} (hf : r ≠ .flags)
    (hp : r ≠ .pc) : t.readReg r = s.readReg r := by
  cases r <;> simp_all [State.readReg]

/-- Everything a register write does to the registers (R32). -/
theorem readReg_writeReg (d r : Reg) (v : Word) :
    (s.writeReg d v).readReg r = if r = d ∧ isStorage d then v else s.readReg r := by
  cases d <;> cases r <;> rfl

/-- A state whose storage registers are those of a register write shows that write. -/
theorem writesReg_of_gr {s t : State} {d : Reg} {v : Word} (h : t.gr = writeGpr s.gr v d) :
    writesReg s t d v := by
  intro r hf hp
  rw [← readReg_writeReg, readReg_congr_gr (s := s.writeReg d v) h hf hp]

/-- A write that the register file discards leaves the storage registers as they are (R32). -/
theorem writeGpr_of_not_isStorage {d : Reg} (h : isStorage d = false) (g : GprFile) (v : Word) :
    writeGpr g v d = g := by
  cases d <;> first | rfl | cases h

/-- A write to a register other than 12 and 13 leaves those two (R32). -/
theorem writeGpr_r12_r13 {d : Reg} (h12 : d ≠ .r12) (h13 : d ≠ .r13) (g : GprFile) (v : Word) :
    (writeGpr g v d).r12 = g.r12 ∧ (writeGpr g v d).r13 = g.r13 := by
  cases d <;> simp_all [writeGpr]

end Sys2Proof.Machine
end

