-- ==== Sys2Proof/Laws/Exec.lean ====
section
/-! SUPPORT. What each shared operation can do, said once: the checks, the trap, the ways a meaning and
a step end, and each instruction where its checks pass. -/

namespace Sys2Proof.Machine

/-! ## Traps -/

/-- Everything a trap does, in the numbers of R163 and R164 (R166, R167). -/
theorem takeTrap_eq_trapTaken (s : State) (k : Trap) : s.takeTrap k = trapTaken s k := by
  cases k <;> rfl

/-- A trap changes only the pc, or only `stop` (R165). -/
theorem takeTrap_cases (s : State) (k : Trap) :
    (s.vector (trapVector k) ≠ 0 ∧ s.takeTrap k = { s with pc := s.vector (trapVector k) }) ∨
    (s.vector (trapVector k) = 0 ∧ s.takeTrap k = { s with stop := trapStop k }) := by
  by_cases h : s.vector (trapVector k) = 0
  · exact .inr ⟨h, if_pos h⟩
  · exact .inl ⟨h, if_neg h⟩

section
variable (s : State) (k : Trap)

@[simp] theorem takeTrap_gr : (s.takeTrap k).gr = s.gr := by
  rcases takeTrap_cases s k with ⟨_, h⟩ | ⟨_, h⟩ <;> rw [h]
@[simp] theorem takeTrap_flags : (s.takeTrap k).flags = s.flags := by
  rcases takeTrap_cases s k with ⟨_, h⟩ | ⟨_, h⟩ <;> rw [h]
@[simp] theorem takeTrap_seg : (s.takeTrap k).seg = s.seg := by
  rcases takeTrap_cases s k with ⟨_, h⟩ | ⟨_, h⟩ <;> rw [h]
@[simp] theorem takeTrap_ivt : (s.takeTrap k).ivt = s.ivt := by
  rcases takeTrap_cases s k with ⟨_, h⟩ | ⟨_, h⟩ <;> rw [h]
@[simp] theorem takeTrap_prog : (s.takeTrap k).prog = s.prog := by
  rcases takeTrap_cases s k with ⟨_, h⟩ | ⟨_, h⟩ <;> rw [h]
@[simp] theorem takeTrap_segSize : (s.takeTrap k).segSize = s.segSize := by
  rcases takeTrap_cases s k with ⟨_, h⟩ | ⟨_, h⟩ <;> rw [h]
@[simp] theorem takeTrap_policy : (s.takeTrap k).policy = s.policy := by
  rcases takeTrap_cases s k with ⟨_, h⟩ | ⟨_, h⟩ <;> rw [h]
@[simp] theorem takeTrap_ext : (s.takeTrap k).ext = s.ext := by
  rcases takeTrap_cases s k with ⟨_, h⟩ | ⟨_, h⟩ <;> rw [h]
@[simp] theorem takeTrap_draws : (s.takeTrap k).draws = s.draws := by
  rcases takeTrap_cases s k with ⟨_, h⟩ | ⟨_, h⟩ <;> rw [h]

end

/-! ## The checks -/

theorem roles_any_isReserved (roles : List Reg) :
    roles.any isReserved = true ↔ Reg.r12 ∈ roles ∨ Reg.r13 ∈ roles := by
  simp only [List.any_eq_true, isReserved, Bool.or_eq_true, decide_eq_true_eq]
  constructor
  · rintro ⟨r, hr, rfl | rfl⟩
    · exact .inl hr
    · exact .inr hr
  · rintro (h | h)
    · exact ⟨_, h, .inl rfl⟩
    · exact ⟨_, h, .inr rfl⟩

/-- The meanings and the claims read the register-role use of a selectable operand alike (R75). -/
@[simp] theorem selectedReg_eq_operandRoles (y : Operand) : selectedReg y = operandRoles y := by
  cases y <;> rfl

/-- Both outcomes of the reserved-register check (R33). -/
theorem checkRoles_cases (s : State) (roles : List Reg) (body : Except Trap State) :
    (rolesAllowed s roles ∧ checkRoles s roles body = body) ∨
    (s.policy = .strict ∧ (Reg.r12 ∈ roles ∨ Reg.r13 ∈ roles) ∧
      checkRoles s roles body = .error .illegalOp) := by
  unfold checkRoles
  by_cases h : s.policy = .strict ∧ roles.any isReserved = true
  · exact .inr ⟨h.1, (roles_any_isReserved _).mp h.2, if_pos h⟩
  · refine .inl ⟨fun hp => ?_, if_neg h⟩
    have := mt (fun hr => ⟨hp, (roles_any_isReserved _).mpr hr⟩) h
    exact not_or.mp this

theorem checkRoles_of_allowed {s : State} {roles : List Reg} (h : rolesAllowed s roles)
    (body : Except Trap State) : checkRoles s roles body = body := by
  rcases checkRoles_cases s roles body with ⟨_, hb⟩ | ⟨hp, hr, _⟩
  · exact hb
  · have := h hp
    tauto

theorem checkRoles_of_reserved {s : State} {roles : List Reg} (hp : s.policy = .strict)
    (hr : Reg.r12 ∈ roles ∨ Reg.r13 ∈ roles) (body : Except Trap State) :
    checkRoles s roles body = .error .illegalOp :=
  if_pos ⟨hp, (roles_any_isReserved _).mpr hr⟩

@[simp] theorem finish_ok (s t : State) : finish s (.ok t) = .next t := rfl
@[simp] theorem finish_error (s : State) (k : Trap) : finish s (.error k) = .next (s.takeTrap k) := rfl

/-- The two ways an instruction that ends through `finish` gives its next state. -/
theorem finish_next {s t : State} {e : Except Trap State} (h : finish s e = .next t) :
    e = .ok t ∨ ∃ k, e = .error k ∧ t = s.takeTrap k := by
  cases e with
  | ok u => exact .inl (congrArg _ (Host.Outcome.next.inj h))
  | error k => exact .inr ⟨k, rfl, (Host.Outcome.next.inj h).symm⟩

/-- What a load or a store does after the reserved-register check (R125). -/
theorem memoryAccess_of_allowed {width : Nibble} {x : Reg} {y : Operand} {s : State}
    (h : rolesAllowed s (x :: operandRoles y)) (access : Nat → Word → State) :
    memoryAccess width x y s access =
      if 4 ≤ width.toNat then .error .illegalOp
      else if (s.readOperand y).toNat + 2 ^ width.toNat ≤ s.segSize then
        .ok (access (2 ^ width.toNat) (s.readOperand y))
      else .error .segFault := by
  unfold memoryAccess
  rw [checkRoles_of_allowed h]
  unfold widthBytes State.inBounds
  by_cases hw : width.toNat < 4
  · simp [hw, Nat.not_le.mpr hw]
  · simp [hw, Nat.le_of_not_lt hw]

/-! ## The handler -/

/-- The three outcomes of a supplied handler (R152, R154). -/
theorem runHandler_cases (code : BitVec 8) (s : State) (o : HandlerOutcome) :
    (∃ k, o = .fault k ∧ runHandler code s o = .next (s.takeTrap k)) ∨
    (∃ m, o = .next m ∧ handlerContract s.segSize s.policy s.machine m ∧
      runHandler code s o = .next (s.withMachine m)) ∨
    (∃ m, o = .next m ∧ ¬ handlerContract s.segSize s.policy s.machine m ∧
      runHandler code s o = .refused (.handlerBreaksContract code)) := by
  cases o with
  | fault k => exact .inl ⟨k, rfl, rfl⟩
  | next m =>
    by_cases h : handlerContract s.segSize s.policy s.machine m
    · exact .inr (.inl ⟨m, rfl, h, if_pos h⟩)
    · exact .inr (.inr ⟨m, rfl, h, if_neg h⟩)

/-- The no-op handler only advances (R153). -/
theorem exec_extended_nop {code : BitVec 8} {d : Nibble} {v : Imm16} {s : State}
    (h : s.handler code = hNop) : exec (.extended code d v) s = .next s.advance := by
  simp only [exec, execExtended, h, Handler.answer_hNop]
  exact if_pos (handlerContract_nop _ _ _)

/-! ## The step -/

/-- The ways a step gives a next state: the machine runs, and either the fetch or the opcode raised a
fault, or the decoded instruction was executed (R193). -/
theorem step_next_cases {s t : State} (h : step s = .next t) :
    s.stop = .running ∧
    ((s.prog[s.pc.toNat]? = none ∧ t = s.takeTrap .segFault) ∨
      (∃ w e, s.prog[s.pc.toNat]? = some w ∧ decode w = .error e ∧ t = s.takeTrap .illegalOp) ∨
      (∃ w i, s.prog[s.pc.toNat]? = some w ∧ decode w = .ok i ∧ exec i s = .next t)) := by
  unfold step State.fetchDecode State.fetchWord at h
  by_cases hr : s.stop = .running
  · refine ⟨hr, ?_⟩
    rw [if_pos hr] at h
    cases hw : s.prog[s.pc.toNat]? with
    | none =>
      rw [hw] at h
      exact .inl ⟨rfl, (Host.Outcome.next.inj h).symm⟩
    | some w =>
      rw [hw] at h
      cases hd : decode w with
      | error e =>
        simp only [hd] at h
        exact .inr (.inl ⟨w, e, rfl, hd, (Host.Outcome.next.inj h).symm⟩)
      | ok i =>
        simp only [hd] at h
        exact .inr (.inr ⟨w, i, rfl, hd, h⟩)
  · rw [if_neg hr] at h
    cases h

end Sys2Proof.Machine
end

