-- ==== Sys2Proof/Laws/Flags.lean ====
section
/-! SUPPORT. What a flag write does, bit by bit, and what the branch conditions read. -/

namespace Sys2Proof.Machine

/-- Everything a flag write does: bit `i` holds `b`, every other bit is kept. -/
theorem getLsbD_withFlag (f : Word) (i j : Nat) (b : Bool) (hi : i < 64) :
    (withFlag f i b).getLsbD j = if j = i then b else f.getLsbD j := by
  have hone : (1#64 <<< i).getLsbD j = decide (j = i) := by
    rw [← BitVec.twoPow_eq, BitVec.getLsbD_twoPow]
    by_cases h : j = i
    · simp [h, hi]
    · simp [h, hi]; omega
  unfold withFlag
  cases b
  · rw [if_neg (by simp), BitVec.getLsbD_and, BitVec.getLsbD_not, hone]
    by_cases hj : j = i
    · simp [hj]
    · by_cases hlt : j < 64
      · simp only [hj, hlt, decide_true, decide_false, Bool.not_false, Bool.and_true, if_false]
      · simp only [BitVec.getLsbD_of_ge f j (Nat.le_of_not_lt hlt), Bool.false_and, hj, if_false]
  · rw [if_pos rfl, BitVec.getLsbD_or, hone]
    by_cases hj : j = i <;> simp [hj]

theorem getLsbD_withV (f : Word) (b : Bool) (j : Nat) :
    (withV f b).getLsbD j = if j = 0 then b else f.getLsbD j :=
  getLsbD_withFlag f 0 j b (by omega)

theorem getLsbD_withZN (f : Word) (z n : Bool) (j : Nat) :
    (withZN f z n).getLsbD j = if j = 2 then n else if j = 1 then z else f.getLsbD j := by
  unfold withZN
  rw [getLsbD_withFlag _ 2 j n (by omega), getLsbD_withFlag _ 1 j z (by omega)]

/-- A word is unchanged above bit 2 where its bits from 3 up are. -/
theorem shiftRight_three_congr {f g : Word} (h : ∀ j, 3 ≤ j → g.getLsbD j = f.getLsbD j) :
    g >>> 3 = f >>> 3 := by
  apply BitVec.eq_of_getLsbD_eq
  intro i _
  simp [BitVec.getLsbD_ushiftRight, h (3 + i) (by omega)]

theorem withV_upper (f : Word) (b : Bool) : withV f b >>> 3 = f >>> 3 :=
  shiftRight_three_congr fun j hj => by rw [getLsbD_withV, if_neg (by omega)]

theorem withZN_upper (f : Word) (z n : Bool) : withZN f z n >>> 3 = f >>> 3 :=
  shiftRight_three_congr fun j hj => by
    rw [getLsbD_withZN, if_neg (by omega), if_neg (by omega)]

/-- The defined condition codes are those below 8 (R78). -/
theorem condOf_eq_none_iff (c : Nibble) : condOf c = none ↔ 8 ≤ c.toNat := by
  revert c; decide

end Sys2Proof.Machine
end

