-- ==== Sys2Proof/Laws/Inversion.lean ====
section
/-! SUPPORT. What executing any instruction can do, said once: it takes the trap of `instrFault`, it has
the effect `instrEffect`, or it runs a supplied handler. Proofs over all instructions start from
`exec_next_cases` and never unfold a meaning. -/

namespace Sys2Proof.Machine

/-- What an instruction does when it raises no fault and runs no supplied handler. -/
def instrEffect (i : Instr) (s : State) : State :=
  match i with
  | .add d x y => aluEffect (fun l r => l + r) (fun l r t => t.setV (addWraps l r)) d x y s
  | .sub d x y => aluEffect (fun l r => l - r) (fun l r t => t.setV (subBorrows l r)) d x y s
  | .mul d x y => aluEffect (fun l r => l * r) unspecifiedV d x y s
  | .div d x y => aluEffect (fun l r => l / r) unspecifiedV d x y s
  | .and d x y => aluEffect (fun l r => l &&& r) unspecifiedV d x y s
  | .or d x y => aluEffect (fun l r => l ||| r) unspecifiedV d x y s
  | .xor d x y => aluEffect (fun l r => l ^^^ r) unspecifiedV d x y s
  | .load w x y => (s.writeReg x (s.loadBytes (s.readOperand y) (2 ^ w.toNat))).advance
  | .store w x y => (s.storeBytes (s.readOperand y) (2 ^ w.toNat) (s.readReg x)).advance
  | .compare d x y =>
    ((s.writeReg d (cmpValue (s.readReg x) (s.readOperand y))).setFlags
      (withZN s.flags (cmpEqual (s.readReg x) (s.readOperand y))
        (cmpLess (s.readReg x) (s.readOperand y)))).advance
  | .branch c y => s.setPc (pcAfter (.branch c y) s)
  | .move d x shift => (s.writeReg d (shiftBy shift (s.readOperand x))).advance
  | .assign d x y v => (s.writeReg d (assignValue (s.readReg d) x y v)).advance
  | .interrupt n => if n = 0 then s.halt else s.setPc (s.vector n)
  | .extended _ _ _ => s.advance

/-! ## The reserved-register check -/

theorem exec_of_usesReserved {i : Instr} {s : State} (h : usesReserved i s) :
    exec i s = .next (s.takeTrap .illegalOp) := by
  obtain ⟨hp, hr⟩ := h
  cases i <;> simp only [roleFields, selectedReg_eq_operandRoles] at hr
  case interrupt => simp at hr
  case extended => simp at hr
  all_goals
    simp only [exec, execAdd, execSub, execMul, execDiv, execAnd, execOr, execXor, execLoad,
      execStore, execCompare, execBranch, execMove, execAssign, aluOp, memoryAccess]
    rw [checkRoles_of_reserved hp hr, finish_error]

theorem rolesAllowed_of_not_usesReserved {i : Instr} {s : State} (h : ¬ usesReserved i s) :
    rolesAllowed s (roleFields i) := fun hp =>
  not_or.mp fun hr => h ⟨hp, hr⟩

theorem instrFault_eq_ownFault {i : Instr} {s : State} (h : rolesAllowed s (roleFields i)) :
    instrFault i s = ownFault i s :=
  if_neg fun hu => not_or.mpr (h hu.1) hu.2

/-- An instruction that raises no fault passed the reserved-register check. -/
theorem rolesAllowed_of_instrFault {i : Instr} {s : State} (h : instrFault i s = none) :
    rolesAllowed s (roleFields i) := by
  refine rolesAllowed_of_not_usesReserved fun hu => ?_
  rw [instrFault, if_pos hu] at h
  cases h

/-! ## The outcomes -/

/-- An instruction that raises a fault takes its trap and does nothing else (R165). -/
theorem exec_of_instrFault {i : Instr} {s : State} {k : Trap} (h : instrFault i s = some k) :
    exec i s = .next (s.takeTrap k) := by
  by_cases hu : usesReserved i s
  · rw [instrFault, if_pos hu] at h
    cases h
    exact exec_of_usesReserved hu
  have ha := rolesAllowed_of_not_usesReserved hu
  rw [instrFault, if_neg hu] at h
  cases i <;> simp only [roleFields, selectedReg_eq_operandRoles] at ha <;>
    simp only [ownFault] at h
  case div d x y =>
    simp only [exec, execDiv]
    rw [checkRoles_of_allowed ha]
    split at h <;> simp_all
  case load width x y =>
    simp only [exec, execLoad]
    rw [memoryAccess_of_allowed ha]
    by_cases hw : 4 ≤ width.toNat
    · simp_all
    · by_cases hb : s.segSize < (s.readOperand y).toNat + 2 ^ width.toNat
      · rw [if_neg hw, if_pos hb] at h
        cases h
        rw [if_neg hw, if_neg (by omega), finish_error]
      · rw [if_neg hw, if_neg hb] at h
        cases h
  case store width x y =>
    simp only [exec, execStore]
    rw [memoryAccess_of_allowed ha]
    by_cases hw : 4 ≤ width.toNat
    · simp_all
    · by_cases hb : s.segSize < (s.readOperand y).toNat + 2 ^ width.toNat
      · rw [if_neg hw, if_pos hb] at h
        cases h
        rw [if_neg hw, if_neg (by omega), finish_error]
      · rw [if_neg hw, if_neg hb] at h
        cases h
  case branch c y =>
    simp only [exec, execBranch]
    rw [checkRoles_of_allowed ha]
    by_cases hc : 8 ≤ c.toNat
    · rw [if_pos hc] at h
      cases h
      simp [(condOf_eq_none_iff c).mpr hc]
    · rw [if_neg hc] at h
      cases h
  case assign d x y v =>
    simp only [exec, execAssign]
    rw [checkRoles_of_allowed ha]
    split at h <;> simp_all
  case extended code d v =>
    cases ho : (s.handler code).answer d v s.machine with
    | fault k' =>
      rw [ho] at h
      cases h
      simp only [exec, execExtended, ho, runHandler, finish_error]
    | next m =>
      rw [ho] at h
      cases h
  all_goals cases h

/-- A branch with a defined condition goes where `pcAfter` says. -/
theorem branch_pcAfter {c : Nibble} {cond : Cond} (h : condOf c = some cond) (y : Operand)
    (s : State) :
    (if condHolds cond s.flags then s.setPc (s.branchTarget y) else s.advance) =
      s.setPc (pcAfter (.branch c y) s) := by
  have hc : c.toNat < 8 := by
    by_contra hc
    rw [(condOf_eq_none_iff c).mpr (by omega)] at h
    cases h
  unfold condOf at h
  simp only [pcAfter, State.branchTarget, State.advance]
  generalize c.toNat = n at h hc
  interval_cases n <;> cases h <;> simp only [condHolds, flagV, flagZ, flagN] <;> cases y <;>
    first | rfl | exact (apply_ite s.setPc _ _ _).symm

/-- An instruction that raises no fault and runs no supplied handler completes with its effect. -/
theorem exec_of_no_fault {i : Instr} {s : State} (h : instrFault i s = none)
    (hh : ¬ runsHandler i s) : exec i s = .next (instrEffect i s) := by
  have ha := rolesAllowed_of_instrFault h
  rw [instrFault_eq_ownFault ha] at h
  cases i <;> simp only [roleFields, selectedReg_eq_operandRoles] at ha <;>
    simp only [ownFault] at h
  case div d x y =>
    simp only [exec, execDiv]
    rw [checkRoles_of_allowed ha]
    split at h
    · cases h
    · next h0 => rw [if_neg h0, finish_ok, instrEffect]
  case load width x y =>
    simp only [exec, execLoad]
    rw [memoryAccess_of_allowed ha]
    split at h
    · cases h
    · next hw =>
      split at h
      · cases h
      · rw [if_neg hw, if_pos (by omega), finish_ok, instrEffect]
  case store width x y =>
    simp only [exec, execStore]
    rw [memoryAccess_of_allowed ha]
    split at h
    · cases h
    · next hw =>
      split at h
      · cases h
      · rw [if_neg hw, if_pos (by omega), finish_ok, instrEffect]
  case branch c y =>
    simp only [exec, execBranch]
    rw [checkRoles_of_allowed ha]
    split at h
    · cases h
    · next hc =>
      cases hcond : condOf c with
      | none => exact absurd ((condOf_eq_none_iff c).mp hcond) hc
      | some cond =>
        simp only
        rw [branch_pcAfter hcond, finish_ok, instrEffect]
  case assign d x y v =>
    simp only [exec, execAssign]
    rw [checkRoles_of_allowed ha]
    split at h
    · cases h
    · next hxy => rw [if_neg hxy, finish_ok, instrEffect]
  case extended code d v =>
    exact exec_extended_nop (by_contra fun hc => hh ⟨code, d, v, rfl, hc⟩)
  case interrupt n => rfl
  all_goals
    simp only [exec, execAdd, execSub, execMul, execAnd, execOr, execXor, execCompare, execMove,
      aluOp]
    rw [checkRoles_of_allowed ha, finish_ok, instrEffect]

/-- The outcomes of an extended opcode with a supplied handler (R152). -/
theorem exec_of_runsHandler {i : Instr} {s : State} (hh : runsHandler i s) :
    (∃ k, instrFault i s = some k ∧ exec i s = .next (s.takeTrap k)) ∨
    (instrFault i s = none ∧ ∃ m, handlerContract s.segSize s.policy s.machine m ∧
      exec i s = .next (s.withMachine m)) ∨
    (instrFault i s = none ∧ ∃ code, exec i s = .refused (.handlerBreaksContract code)) := by
  obtain ⟨code, d, v, rfl, -⟩ := hh
  have he : exec (.extended code d v) s =
      runHandler code s ((s.handler code).answer d v s.machine) := rfl
  have hf : instrFault (.extended code d v) s =
      match (s.handler code).answer d v s.machine with
      | .fault k => some k
      | .next _ => none :=
    instrFault_eq_ownFault (fun _ => ⟨by simp [roleFields], by simp [roleFields]⟩)
  rw [he, hf]
  rcases runHandler_cases code s ((s.handler code).answer d v s.machine) with
    ⟨k, ho, hr⟩ | ⟨m, ho, hm, hr⟩ | ⟨m, ho, _, hr⟩
  · exact .inl ⟨k, by rw [ho], hr⟩
  · exact .inr (.inl ⟨by rw [ho], m, hm, hr⟩)
  · exact .inr (.inr ⟨by rw [ho], code, hr⟩)

/-- Everything executing an instruction to a next state can have been: its trap, its effect, or a
supplied handler that kept its contract. -/
theorem exec_next_cases {i : Instr} {s t : State} (h : exec i s = .next t) :
    (∃ k, instrFault i s = some k ∧ t = s.takeTrap k) ∨
    (instrFault i s = none ∧ ¬ runsHandler i s ∧ t = instrEffect i s) ∨
    (instrFault i s = none ∧ runsHandler i s ∧
      ∃ m, handlerContract s.segSize s.policy s.machine m ∧ t = s.withMachine m) := by
  by_cases hh : runsHandler i s
  · rcases exec_of_runsHandler hh with ⟨k, hf, he⟩ | ⟨hf, m, hm, he⟩ | ⟨_, code, he⟩
    · exact .inl ⟨k, hf, Host.Outcome.next.inj (h.symm.trans he)⟩
    · exact .inr (.inr ⟨hf, hh, m, hm, Host.Outcome.next.inj (h.symm.trans he)⟩)
    · cases h.symm.trans he
  · cases hf : instrFault i s with
    | some k =>
      exact .inl ⟨k, rfl, Host.Outcome.next.inj (h.symm.trans (exec_of_instrFault hf))⟩
    | none =>
      exact .inr (.inl ⟨rfl, hh, Host.Outcome.next.inj (h.symm.trans (exec_of_no_fault hf hh))⟩)

end Sys2Proof.Machine
end

