-- ==== Sys2Proof/Laws/Memory.lean ====
section
/-! SUPPORT. The laws of the Memory Segment: a read after a write, one byte and several, and every
operation keeping the canonical form inside the segment. -/

namespace Sys2Proof.Machine

/-! ## One byte -/

theorem Memory.read_of_not_mem {m : Memory} {a : Nat} (h : ∀ c ∈ m, c.1 ≠ a) :
    m.read a = Memory.unlisted := by
  induction m with
  | nil => rfl
  | cons p m ih =>
    obtain ⟨k, c⟩ := p
    have hk : k ≠ a := h (k, c) (by simp)
    simp [Memory.read, hk, ih fun c hc => h c (by simp [hc])]

theorem Memory.read_erase (m : Memory) (a b : Nat) :
    Memory.read (m.filter fun c => c.1 ≠ a) b = if b = a then Memory.unlisted else m.read b := by
  induction m with
  | nil => simp [Memory.read]
  | cons p m ih =>
    obtain ⟨k, c⟩ := p
    by_cases hk : k = a
    · subst hk
      by_cases hb : b = k
      · simp_all
      · simp_all [Memory.read, Ne.symm hb]
    · by_cases hb : k = b
      · subst hb; simp [hk, Memory.read]
      · simp_all [Memory.read]

theorem Memory.read_insert (m : Memory) (a b : Nat) (v : Byte) (h : ∀ c ∈ m, c.1 ≠ a) :
    (m.insert a v).read b = if b = a then v else m.read b := by
  induction m with
  | nil =>
    by_cases hb : a = b
    · simp [Memory.insert, Memory.read, hb]
    · simp [Memory.insert, Memory.read, hb, Ne.symm hb]
  | cons p m ih =>
    obtain ⟨k, c⟩ := p
    have hk : k ≠ a := h (k, c) (by simp)
    have ih := ih fun c hc => h c (by simp [hc])
    by_cases hlt : a < k
    · rw [Memory.insert, if_pos hlt]
      by_cases hb : a = b
      · simp [Memory.read, hb]
      · simp [Memory.read, hb, Ne.symm hb]
    · by_cases hb : k = b
      · subst hb; simp [Memory.insert, hlt, Memory.read, hk]
      · simp [Memory.insert, hlt, Memory.read, hb, ih]

/-- Everything a write of one byte does to the bytes read (R60). -/
theorem Memory.read_write (m : Memory) (a b : Nat) (v : Byte) :
    (m.write a v).read b = if b = a then v else m.read b := by
  unfold Memory.write
  by_cases hv : v = Memory.unlisted
  · rw [if_pos hv, Memory.read_erase, hv]
  · rw [if_neg hv, Memory.read_insert _ _ _ _ (by simp), Memory.read_erase]
    by_cases hb : b = a <;> simp [hb]

/-! ## The canonical form -/

theorem Memory.mem_insert {m : Memory} {a : Nat} {v : Byte} {c : Host.Cell} :
    c ∈ m.insert a v ↔ c = (a, v) ∨ c ∈ m := by
  induction m with
  | nil => simp [Memory.insert]
  | cons p m ih =>
    obtain ⟨k, b⟩ := p
    by_cases hlt : a < k
    · simp [Memory.insert, hlt]
    · simp [Memory.insert, hlt, ih, or_left_comm]

theorem Memory.insert_sorted {m : Memory} {a : Nat} {v : Byte}
    (hm : m.Pairwise fun p q => p.1 < q.1) (h : ∀ c ∈ m, c.1 ≠ a) :
    (m.insert a v).Pairwise fun p q => p.1 < q.1 := by
  induction m with
  | nil => simp [Memory.insert]
  | cons p m ih =>
    obtain ⟨k, b⟩ := p
    obtain ⟨hk, hm⟩ := List.pairwise_cons.mp hm
    have hka : k ≠ a := h (k, b) (by simp)
    by_cases hlt : a < k
    · rw [Memory.insert, if_pos hlt]
      refine List.pairwise_cons.mpr ⟨fun q hq => ?_, List.pairwise_cons.mpr ⟨hk, hm⟩⟩
      rcases List.mem_cons.mp hq with rfl | hq
      · exact hlt
      · exact Nat.lt_trans hlt (hk q hq)
    · rw [Memory.insert, if_neg hlt]
      refine List.pairwise_cons.mpr ⟨fun q hq => ?_, ih hm fun c hc => h c (by simp [hc])⟩
      rcases Memory.mem_insert.mp hq with rfl | hq
      · simp only; omega
      · exact hk q hq

/-- A write of one byte keeps the canonical form. -/
theorem Memory.write_wf {m : Memory} (h : m.wf) (a : Nat) (v : Byte) : (m.write a v).wf := by
  have hrest : ∀ c ∈ m.filter (fun c : Host.Cell => c.1 ≠ a), c.2 ≠ 0 := fun c hc =>
    h.2 c (List.mem_filter.mp hc).1
  have hsorted := h.1.sublist (List.filter_sublist (p := fun c : Host.Cell => decide (c.1 ≠ a)))
  unfold Memory.write
  by_cases hv : v = Memory.unlisted
  · simp only [hv, if_true]
    exact ⟨hsorted, hrest⟩
  · simp only [if_neg hv]
    refine ⟨Memory.insert_sorted hsorted (by simp), fun c hc => ?_⟩
    rcases Memory.mem_insert.mp hc with rfl | hc
    · exact hv
    · exact hrest c hc

/-- A write of one byte below `n` lists no offset at or past `n`. -/
theorem Memory.write_lt {m : Memory} {n : Nat} (h : ∀ c ∈ m, c.1 < n) {a : Nat} (ha : a < n)
    (v : Byte) : ∀ c ∈ m.write a v, c.1 < n := by
  intro c hc
  unfold Memory.write at hc
  by_cases hv : v = Memory.unlisted
  · rw [if_pos hv] at hc
    exact h c (List.mem_filter.mp hc).1
  · rw [if_neg hv] at hc
    rcases Memory.mem_insert.mp hc with rfl | hc
    · exact ha
    · exact h c (List.mem_filter.mp hc).1

/-- MemWrite keeps the canonical form. -/
theorem Memory.writeBytes_wf {m : Memory} (h : m.wf) (a n : Nat) (v : Word) :
    (m.writeBytes a n v).wf := by
  induction n generalizing m a v with
  | zero => exact h
  | succ n ih => exact ih (Memory.write_wf h a _) (a + 1) _

/-- MemWrite inside a segment lists no offset past its end. -/
theorem Memory.writeBytes_lt {m : Memory} {size : Nat} (h : ∀ c ∈ m, c.1 < size) {a n : Nat}
    (ha : a + n ≤ size) (v : Word) : ∀ c ∈ m.writeBytes a n v, c.1 < size := by
  induction n generalizing m a v with
  | zero => exact h
  | succ n ih => exact ih (Memory.write_lt h (by omega) _) (by omega) _

/-! ## Several bytes, bit by bit -/

/-- Everything MemRead returns (R55): bit `i` is bit `i % 8` of byte `a + i / 8`, for the `n` bytes
read. -/
theorem Memory.getLsbD_readBytes (m : Memory) (a n i : Nat) (hn : n ≤ 8) :
    (m.readBytes a n).getLsbD i =
      (decide (i < 8 * n) && (m.read (a + i / 8)).getLsbD (i % 8)) := by
  induction n generalizing a i with
  | zero => simp [Memory.readBytes]
  | succ n ih =>
    rw [Memory.readBytes, BitVec.getLsbD_or, BitVec.getLsbD_shiftLeft, BitVec.getLsbD_setWidth]
    by_cases hi : i < 8
    · have h0 : i / 8 = 0 := by omega
      have h1 : i % 8 = i := by omega
      have h2 : i < 64 := by omega
      have h3 : i < 8 * (n + 1) := by omega
      simp [hi, h0, h1, h2, h3]
    · rw [ih (a + 1) (i - 8) (by omega), BitVec.getLsbD_of_ge (m.read a) i (by omega)]
      have h1 : a + 1 + (i - 8) / 8 = a + i / 8 := by omega
      have h2 : (i - 8) % 8 = i % 8 := by omega
      rw [h1, h2]
      by_cases h3 : i < 8 * (n + 1)
      · have h4 : i - 8 < 8 * n := by omega
        have h5 : i < 64 := by omega
        simp [h3, h4, h5, hi]
      · have h4 : ¬ i - 8 < 8 * n := by omega
        simp [h3, h4]

/-- Everything MemWrite does to the bytes read (R55): bit `j` of byte `b` is bit `8 (b - a) + j` of the
value inside the `n` bytes written, and every byte outside them is kept. -/
theorem Memory.getLsbD_read_writeBytes (m : Memory) (a n b j : Nat) (v : Word) (hj : j < 8) :
    ((m.writeBytes a n v).read b).getLsbD j =
      if a ≤ b ∧ b < a + n then v.getLsbD (8 * (b - a) + j) else (m.read b).getLsbD j := by
  induction n generalizing m a v with
  | zero =>
    rw [Memory.writeBytes, if_neg (by omega)]
  | succ n ih =>
    rw [Memory.writeBytes, ih]
    by_cases hba : b = a
    · subst hba
      rw [if_neg (by omega), if_pos (by omega), Memory.read_write, if_pos rfl]
      simp [hj]
    · rw [Memory.read_write, if_neg hba]
      by_cases hin : a + 1 ≤ b ∧ b < a + 1 + n
      · rw [if_pos hin, if_pos (by omega), BitVec.getLsbD_ushiftRight]
        congr 1
        omega
      · rw [if_neg hin, if_neg (by omega)]

/-- A byte outside the bytes MemWrite stores to reads as before. -/
theorem Memory.read_writeBytes_outside (m : Memory) (a n b : Nat) (v : Word)
    (h : b < a ∨ a + n ≤ b) : (m.writeBytes a n v).read b = m.read b := by
  apply BitVec.eq_of_getLsbD_eq
  intro j hj
  rw [Memory.getLsbD_read_writeBytes _ _ _ _ _ _ hj, if_neg (by omega)]

/-! ## Equal bytes, equal data -/

theorem Memory.read_head {c : Host.Cell} {m : Memory} : Memory.read (c :: m) c.1 = c.2 := if_pos rfl

/-- Below the first listed offset nothing is listed. -/
theorem Memory.read_below {c : Host.Cell} {m : Memory} {a : Nat} (h : Memory.wf (c :: m))
    (ha : a < c.1) : Memory.read (c :: m) a = 0 := by
  refine Memory.read_of_not_mem fun e he => ?_
  rcases List.mem_cons.mp he with rfl | he
  · omega
  · have := (List.pairwise_cons.mp h.1).1 e he
    omega

/-- Two memories in canonical form that read alike are the same list. -/
theorem Memory.eq_of_read_eq {m m' : Memory} (h : m.wf) (h' : m'.wf)
    (he : ∀ a, m.read a = m'.read a) : m = m' := by
  induction m generalizing m' with
  | nil =>
    cases m' with
    | nil => rfl
    | cons y m' => exact absurd (read_head.symm.trans (he y.1).symm) (h'.2 y List.mem_cons_self)
  | cons x m ih =>
    cases m' with
    | nil => exact absurd (read_head.symm.trans (he x.1)) (h.2 x List.mem_cons_self)
    | cons y m' =>
      have hk : x.1 = y.1 := by
        rcases Nat.lt_trichotomy x.1 y.1 with hlt | heq | hlt
        · exact absurd (read_head.symm.trans ((he x.1).trans (read_below h' hlt)))
            (h.2 x List.mem_cons_self)
        · exact heq
        · exact absurd (read_head.symm.trans ((he y.1).symm.trans (read_below h hlt)))
            (h'.2 y List.mem_cons_self)
      have hx : x = y := Prod.ext hk (read_head.symm.trans ((he x.1).trans (hk ▸ read_head)))
      subst hx
      obtain ⟨hlt, hs⟩ := List.pairwise_cons.mp h.1
      obtain ⟨hlt', hs'⟩ := List.pairwise_cons.mp h'.1
      congr 1
      refine ih ⟨hs, fun c hc => h.2 c (List.mem_cons_of_mem _ hc)⟩
        ⟨hs', fun c hc => h'.2 c (List.mem_cons_of_mem _ hc)⟩ fun a => ?_
      by_cases ha : x.1 = a
      · subst ha
        rw [read_of_not_mem fun c hc => (hlt c hc).ne', read_of_not_mem fun c hc => (hlt' c hc).ne']
      · have := he a
        rwa [read, read, if_neg ha, if_neg ha] at this

end Sys2Proof.Machine
end

