-- ==== Sys2Proof/Laws/PerInstr.lean ====
section
/-! SUPPORT. A statement about every instruction as syntax, one lemma per constructor: the word the
encoder writes carries the instruction's primary opcode in bits 3:0 (R83), and no ignored field of it
holds anything but 0 (R88, R92). -/

namespace Sys2Proof.Laws.EncodedWord

/-- The encoded word of `i` carries its opcode and is canonical. -/
def Statement (i : Instr) : Prop :=
  fieldOp (encode i) = i.opcode ∧ canonicalWord (encode i) = encode i

theorem immField_of_selField (y : Operand) :
    (if y.selField = 0#4 then y.immField else 0#16) = y.immField := by
  cases y with
  | imm v => rfl
  | reg r => simp [Operand.immField]

theorem add (d x : Reg) (y : Operand) : Statement (.add d x y) :=
  ⟨fieldOp_packFields .., by simp [canonicalWord, encode, immField_of_selField]⟩

theorem sub (d x : Reg) (y : Operand) : Statement (.sub d x y) :=
  ⟨fieldOp_packFields .., by simp [canonicalWord, encode, immField_of_selField]⟩

theorem mul (d x : Reg) (y : Operand) : Statement (.mul d x y) :=
  ⟨fieldOp_packFields .., by simp [canonicalWord, encode, immField_of_selField]⟩

theorem div (d x : Reg) (y : Operand) : Statement (.div d x y) :=
  ⟨fieldOp_packFields .., by simp [canonicalWord, encode, immField_of_selField]⟩

theorem and (d x : Reg) (y : Operand) : Statement (.and d x y) :=
  ⟨fieldOp_packFields .., by simp [canonicalWord, encode, immField_of_selField]⟩

theorem or (d x : Reg) (y : Operand) : Statement (.or d x y) :=
  ⟨fieldOp_packFields .., by simp [canonicalWord, encode, immField_of_selField]⟩

theorem xor (d x : Reg) (y : Operand) : Statement (.xor d x y) :=
  ⟨fieldOp_packFields .., by simp [canonicalWord, encode, immField_of_selField]⟩

theorem compare (d x : Reg) (y : Operand) : Statement (.compare d x y) :=
  ⟨fieldOp_packFields .., by simp [canonicalWord, encode, immField_of_selField]⟩

theorem load (width : Nibble) (x : Reg) (y : Operand) : Statement (.load width x y) :=
  ⟨fieldOp_packFields .., by simp [canonicalWord, encode, immField_of_selField]⟩

theorem store (width : Nibble) (x : Reg) (y : Operand) : Statement (.store width x y) :=
  ⟨fieldOp_packFields .., by simp [canonicalWord, encode, immField_of_selField]⟩

theorem branch (cond : Nibble) (y : Operand) : Statement (.branch cond y) :=
  ⟨fieldOp_packFields .., by simp [canonicalWord, encode, immField_of_selField]⟩

theorem move (d : Reg) (x : Operand) (shift : Nibble) : Statement (.move d x shift) :=
  ⟨fieldOp_packFields .., by simp [canonicalWord, encode, immField_of_selField]⟩

theorem assign (d : Reg) (x y : Nibble) (v : Imm16) : Statement (.assign d x y v) :=
  ⟨fieldOp_packFields .., by simp [canonicalWord, encode]⟩

theorem interrupt (n : Nibble) : Statement (.interrupt n) :=
  ⟨fieldOp_packFields .., by simp [canonicalWord, encode]⟩

theorem extended (code : BitVec 8) (d : Nibble) (v : Imm16) : Statement (.extended code d v) :=
  ⟨fieldOp_packFields .., by simp [canonicalWord, encode]⟩

end Sys2Proof.Laws.EncodedWord
end

