-- ==== Sys2Proof/Tests/Slice0.lean ====
section
/-! SUPPORT. The model's own tests, each about one step on a small state, with the expected values taken
from the vectors of spec/95_test_vectors.md (their labels stand in the names' comments), and one witness
for the hypotheses of each statement that has some. -/

namespace Sys2Proof.Tests

open Sys2Proof Sys2Proof.Machine

/-! ## Helpers -/

/-- The reset state with a program of one word at the pc 0 and chosen registers. -/
def oneWord (w : InstrWord) (g : GprFile := State.reset.gr) : State :=
  { State.reset with prog := [w], gr := g }

/-- The reset registers with `r1`, `r2` and `r3` chosen. -/
def gprs (r1 r2 r3 : Word) : GprFile := { State.reset.gr with r1 := r1, r2 := r2, r3 := r3 }

/-- One field of the next state, where there is one. -/
def after {α : Type} (o : Result) (f : State → α) : Option α :=
  match o with
  | .next t => some (f t)
  | .fault _ => none
  | .refused _ => none

/-! ## WellFormed: one ill-formed term for each check -/

theorem test_wf_refuses_add : (Instr.add .r1 .r2 (.reg .nul)).wellFormed = false := by decide
theorem test_wf_refuses_sub : (Instr.sub .r1 .r2 (.reg .nul)).wellFormed = false := by decide
theorem test_wf_refuses_mul : (Instr.mul .r1 .r2 (.reg .nul)).wellFormed = false := by decide
theorem test_wf_refuses_div : (Instr.div .r1 .r2 (.reg .nul)).wellFormed = false := by decide
theorem test_wf_refuses_and : (Instr.and .r1 .r2 (.reg .nul)).wellFormed = false := by decide
theorem test_wf_refuses_or : (Instr.or .r1 .r2 (.reg .nul)).wellFormed = false := by decide
theorem test_wf_refuses_xor : (Instr.xor .r1 .r2 (.reg .nul)).wellFormed = false := by decide
theorem test_wf_refuses_load : (Instr.load 0 .r1 (.reg .nul)).wellFormed = false := by decide
theorem test_wf_refuses_store : (Instr.store 0 .r1 (.reg .nul)).wellFormed = false := by decide
theorem test_wf_refuses_compare : (Instr.compare .r1 .r2 (.reg .nul)).wellFormed = false := by decide
theorem test_wf_refuses_branch : (Instr.branch 0 (.reg .nul)).wellFormed = false := by decide
theorem test_wf_refuses_move : (Instr.move .r1 (.reg .nul) 0).wellFormed = false := by decide
theorem test_wf_accepts_zero : (Instr.add .r1 .r2 (.reg .zero)).wellFormed = true := by decide

/-! ## Decode: one word of each row, written from R70, R83 and R92 (v, y, x, d, op) -/

-- 0x0003_0210, A28; 0x0000_A213 with y = 10, A19: register zero, not the selector
theorem test_decode_add : decode 0b00000000000000110000001000010000 =
    .ok (.add .r1 .r2 (.imm 3)) := by decide
theorem test_decode_sub : decode 0b00000000000000000011001000010001 =
    .ok (.sub .r1 .r2 (.reg .r3)) := by decide
theorem test_decode_mul : decode 0b00000000000000001011001000010010 =
    .ok (.mul .r1 .r2 (.reg .ones)) := by decide
theorem test_decode_div : decode 0b00000000000000001010001000010011 =
    .ok (.div .r1 .r2 (.reg .zero)) := by decide
theorem test_decode_and : decode 0b00000000111111110000001000010100 =
    .ok (.and .r1 .r2 (.imm 0xFF)) := by decide
theorem test_decode_or : decode 0b00000000000011110000001000010101 =
    .ok (.or .r1 .r2 (.imm 0x0F)) := by decide
theorem test_decode_xor : decode 0b00000000000000001011001000010110 =
    .ok (.xor .r1 .r2 (.reg .ones)) := by decide
-- 0x0011_0317, M3; 0x0000_9F38, M16
theorem test_decode_load : decode 0b00000000000100010000001100010111 =
    .ok (.load 1 .r3 (.imm 17)) := by decide
theorem test_decode_store : decode 0b00000000000000001001111100111000 =
    .ok (.store 3 .pc (.reg .stack)) := by decide
-- 0x0005_0219, C1; 0x0000_200A, B12; 0x0000_9B1B, V3; 0xFFFF_FC1C, G4
theorem test_decode_compare : decode 0b00000000000001010000001000011001 =
    .ok (.compare .r1 .r2 (.imm 5)) := by decide
theorem test_decode_branch : decode 0b00000000000000000010000000001010 =
    .ok (.branch 0 (.reg .r2)) := by decide
theorem test_decode_move : decode 0b00000000000000001001101100011011 =
    .ok (.move .r1 (.reg .ones) 9) := by decide
theorem test_decode_assign : decode 0b11111111111111111111110000011100 =
    .ok (.assign .r1 12 15 0xFFFF) := by decide
-- 0xFFFF_DC0D, S5; 0xFFFF_DCCE, S6
theorem test_decode_interrupt : decode 0b11111111111111111101110000001101 =
    .ok (.interrupt 0) := by decide
theorem test_decode_extended : decode 0b11111111111111111101110011001110 =
    .ok (.extended 0xCD 12 0xFFFF) := by decide
-- 0xFFFF_FFFF, I7
theorem test_decode_opcode_f : decode 0xFFFFFFFF = .error .reservedOpcode := by decide
theorem test_decode_bytes : decodeBytes [0x17, 0x03, 0x11, 0x00, 0x0D] =
    .ok (.load 1 .r3 (.imm 17), [0x0D]) := by decide
theorem test_decode_table_word : decodeTableWord 8 0x2D = some (.interrupt 2) := by decide

/-! ## Fetch, step and launch -/

theorem test_withFetchWord_runs :
    after (step (State.reset.withFetchWord 32 0x00030210)) id =
      after (exec (.add .r1 .r2 (.imm 3)) (State.reset.withFetchWord 32 0x00030210)) id := by decide
-- E7, F4
theorem test_empty_program_faults :
    after (step State.reset) id = some { State.reset with stop := .faultSegv } := by decide
theorem test_opcode_f_faults :
    after (step (oneWord 0x0000000F)) State.stop = some .faultIllegal := by decide
-- E6
theorem test_halt_program : after (step (oneWord 0x0000000D)) (fun t => (t.stop, t.pc)) =
    some (.halt, 0) := by decide
theorem test_observe_halt :
    after (step (oneWord 0x0000000D)) (fun t => t.observe.map Observation.stop) =
      some (some .halt) := by decide
theorem test_launch_keeps_entry_zero_clear :
    (match launch { defaultLaunch with ivtInit := Vector.replicate 16 7 } with
      | .ok s => (s.vector 0, s.vector 15)
      | .error _ => (1, 1)) = (0, 7) := by decide
-- F2: a handled IllegalOp goes to IVT[2] and keeps r1
theorem test_handled_fault :
    after (step { oneWord 0x00003213 (gprs 9 5 0) with ivt := State.reset.ivt.set 2 7 })
      (fun t => (t.pc, t.stop, t.gr.r1)) = some (7, .running, 9) := by decide

/-! ## ALU -/

-- A5: 0x8000…0 + itself wraps to 0 with V; A8: pc as destination
theorem test_add_wraps : after (step (oneWord 0x00001110 (gprs 0x8000000000000000 0 0)))
    (fun t => (t.gr.r1, t.flags, t.pc)) = some (0, 1, 1) := by decide
theorem test_add_to_pc_discarded : after (exec (.add .pc .r2 (.imm 1))
    { State.reset with pc := 3, gr := gprs 0 4 0 }) (fun t => (t.pc, t.flags)) =
    some (4, 0) := by decide
-- A9, A7 with sub's Z and N kept
theorem test_sub_borrows : after (step (oneWord 0x00050211 (gprs 0 3 0)))
    (fun t => (t.gr.r1, t.flags)) = some (0xFFFFFFFFFFFFFFFE, 1) := by decide
theorem test_sub_keeps_zn : after (exec (.sub .flags .r2 (.imm 0)) { State.reset with flags := 7 })
    (fun t => t.flags) = some 6 := by decide
-- A14
theorem test_mul_low_half : after (step (oneWord 0x0000B212 (gprs 0 3 0)))
    (fun t => (t.gr.r1, t.draws)) = some (0xFFFFFFFFFFFFFFFD, 1) := by decide
-- R110: 0xFFFF_FFFF_FFFF_FFFE / 2, unsigned; A21: a discarded destination still checks
theorem test_div_unsigned : after (step (oneWord 0x00020213 (gprs 0 0xFFFFFFFFFFFFFFFE 0)))
    (fun t => t.gr.r1) = some 0x7FFFFFFFFFFFFFFF := by decide
theorem test_div_zero_faults : after (step (oneWord 0x00003203 (gprs 0 5 0)))
    (fun t => (t.stop, t.pc, t.draws)) = some (.faultIllegal, 0, 0) := by decide
-- A22, A24, A26
theorem test_and : after (step (oneWord 0x00FF0214 (gprs 0 0x1234 0))) (fun t => t.gr.r1) =
    some 0x34 := by decide
theorem test_or : after (step (oneWord 0x000F0215 (gprs 0 0xF0 0))) (fun t => t.gr.r1) =
    some 0xFF := by decide
theorem test_xor : after (step (oneWord 0x0000B216 (gprs 0 0xFF 0))) (fun t => t.gr.r1) =
    some 0xFFFFFFFFFFFFFF00 := by decide
-- S1 and S2
theorem test_strict_reserved : after (step (oneWord 0x00010C10)) State.stop =
    some .faultIllegal := by decide
theorem test_permissive_reserved :
    after (step { oneWord 0x000102C0 (gprs 0 4 0) with policy := .permissive })
      (fun t => (t.gr.r12, t.flags)) = some (5, 0) := by decide

/-! ## Memory -/

/-- The segment of M2 and M3: 88 77 66 55 44 33 22 11 from offset 16. -/
def seg16 : Memory :=
  [(16, 0x88), (17, 0x77), (18, 0x66), (19, 0x55), (20, 0x44), (21, 0x33), (22, 0x22), (23, 0x11)]

-- M3; M10: the width is checked before the bounds
theorem test_load_unaligned : after (step { oneWord 0x00110317 with seg := seg16 })
    (fun t => t.gr.r3) = some 0x6677 := by decide
theorem test_load_width_first : after (step (oneWord 0x0000B147)) State.stop =
    some .faultIllegal := by decide
-- M17; M14
theorem test_store_little_endian :
    after (step (oneWord 0x00100138 (gprs 0x1122334455667788 0 0))) State.seg =
      some seg16 := by decide
theorem test_store_out_of_bounds : after (step (oneWord 0xFFF90138 (gprs 1 0 0)))
    (fun t => (t.stop, t.seg)) = some (.faultSegv, []) := by decide
theorem test_store_zero_unlists : Memory.write [(3, 1), (5, 2)] 3 0 = [(5, 2)] := by decide

/-! ## Control transfer -/

-- C7: V stays; C3: the immediate is zero-extended
theorem test_compare_keeps_v :
    after (exec (.compare .r1 .r2 (.reg .r3)) { State.reset with gr := gprs 0 1 2, flags := 1 })
      (fun t => (t.gr.r1, t.flags)) = some (ones64, 5) := by decide
theorem test_compare_immediate_unsigned : after (step (oneWord 0xFFFF0219 (gprs 0 ones64 0)))
    (fun t => (t.gr.r1, t.flags)) = some (ones64, 4) := by decide
-- B6; B11
theorem test_branch_v_back : after (exec (.branch 3 (.imm 0xFFFE))
    { State.reset with pc := 2, flags := 1 }) State.pc = some 0 := by decide
theorem test_branch_gt_not_on_equal : after (exec (.branch 7 (.imm 10))
    { State.reset with flags := 2 }) State.pc = some 1 := by decide
-- V4; V3
theorem test_move_left : after (step (oneWord 0x0000721B (gprs 0 0x8000000000000003 0)))
    (fun t => t.gr.r1) = some 0x180 := by decide
theorem test_move_right : after (step (oneWord 0x00009B1B)) (fun t => t.gr.r1) =
    some 0x7FFFFFFFFFFFFFFF := by decide
-- G4; G7: the range is checked for a constant destination
theorem test_assign_top : after (step (oneWord 0xFFFFFC1C (gprs 0x1234 0 0)))
    (fun t => t.gr.r1) = some 0xFFFF000000001234 := by decide
theorem test_assign_inverted : after (step (oneWord 0x000115AC)) State.stop =
    some .faultIllegal := by decide

/-! ## interrupt, extended, pseudo-instructions -/

-- I2; I3: an entry of 0 is a jump to 0
theorem test_interrupt_jumps : after (exec (.interrupt 3)
    { State.reset with pc := 4, ivt := State.reset.ivt.set 3 10 }) State.pc = some 10 := by decide
theorem test_interrupt_entry_zero : after (exec (.interrupt 5) { State.reset with pc := 4 })
    (fun t => (t.pc, t.stop)) = some (0, .running) := by decide
-- I5
theorem test_extended_default : after (exec (.extended 0x42 0 0) { State.reset with pc := 7 }) id =
    some { State.reset with pc := 8 } := by decide
-- R94: the words of halt and nop
theorem test_pseudo_words : (Pseudo.halt.expand ++ Pseudo.nop.expand).map encode =
    [0x0000000D, 0x0000000B] := by decide
-- P1: li64 of 0x0123_4567_89AB_CDEF
theorem test_pseudo_li64_words : ((Pseudo.li64 .r1 0x0123456789ABCDEF).expand).map encode =
    [0xCDEF301C, 0x89AB741C, 0x4567B81C, 0x0123FC1C] := by decide

/-! ## Extended handlers -/

/-- The machine right after a launch with the defaults, IVT entry 2 apart. -/
def atStart : MachineState := { State.reset.machine with ivt := State.reset.ivt.set 2 7 }

/-- A handler that answers with `r1 <- v` and the pc moved on, at the start of a launch with `d` = 1 and
`v` = 5. -/
def setR1 : Handler :=
  Handler.ofFun (fun _ v m => .next { m with gr := { m.gr with r1 := v.setWidth 64 }, pc := m.pc + 1 })
    [(1, 5, atStart)]

/-- A handler that stops the machine at the start of a launch, against R154. -/
def stopsMachine : Handler := Handler.ofFun (fun _ _ m => .next { m with stop := .halt }) [(1, 5, atStart)]

/-- The reset state with IVT entry 2 at 7 and a handler for code 0x42. -/
def withHandler (h : Handler) : State :=
  { State.reset with ivt := State.reset.ivt.set 2 7, ext := [(0x42, h)] }

/-- The default launch with IVT_INIT[2] = 7 and a handler for code 0x42. -/
def launchWith (h : Handler) : Launch :=
  { defaultLaunch with
    ivtInit := defaultLaunch.ivtInit.set 2 7, extHandlers := [(0x42, h)] }

-- R152, R155: two launches that differ in the handler of 0x42 differ in what the instruction does
theorem test_extended_supplied_handler :
    after (exec (.extended 0x42 1 5) (withHandler setR1)) (fun t => (t.gr.r1, t.pc)) = some (5, 1) := by
  decide
theorem test_extended_handler_fault :
    after (exec (.extended 0x42 1 5)
      (withHandler (Handler.ofFun (fun _ _ _ => .fault .illegalOp) [(1, 5, atStart)])))
      (fun t => (t.gr.r1, t.pc)) = some (0, 7) := by decide
-- R48, I20: a handler that breaks R154 is refused before the first step, though nothing runs it
theorem test_launch_refuses_breaking_handler :
    launch (launchWith stopsMachine) = .error (.handlerBreaksContract 0x42) ∧
      launch (launchWith setR1) = .ok (withHandler setR1) := by decide

/-! ## Witnesses: for each statement with hypotheses, a state and operands that meet them all -/

/-- A machine with an IllegalOp handler, a permissive policy, and for code 0x42 a handler that sets r1 to
its parameter `v`. -/
def permissive : State :=
  { oneWord 0x0000000F with
    policy := .permissive, ivt := State.reset.ivt.set 2 7, ext := [(0x42, setR1)] }

theorem no_handler {i : Instr} {s : State} (h : s.ext = []) : ¬ runsHandler i s := by
  rintro ⟨code, d, v, _, hc⟩
  simp [State.handler, ExtTable.handler, h] at hc

theorem witness_DecodeEncodeRoundTrip :
    (Instr.branch 7 (.reg .pc)).wellFormed = true ∧ (Instr.move .flags (.imm 0xFFFF) 15).wellFormed := by
  decide

theorem witness_EncodeDecodeClearsIgnoredFields :
    decode 0xFFFFDC0D = .ok (.interrupt 0) ∧ canonicalWord 0xFFFFDC0D = 0x0000000D := by decide

theorem witness_IgnoredFieldsDoNotChangeDecoding :
    ((0xA : Nibble).toNat ≤ 10 ∧ (1 : Nibble) ≠ 0) ∧ (15 : Nibble) ≠ 0 := by decide

theorem witness_DecoderRefusesExactlyOpcodeF :
    (0xFFFFFFFF : InstrWord).extractLsb' 0 4 = 0xF ∧ (0xFFFFFFFE : InstrWord).extractLsb' 0 4 ≠ 0xF := by
  decide

theorem witness_ProgramBytesReadBack :
    ([0x0000000D, 0x12345678] : List InstrWord)[1]? = some 0x12345678 ∧ 3 < 4 := by decide

theorem witness_StepRunsTheDecodedInstruction :
    let s := oneWord 0x00030210
    s.stop = .running ∧ s.prog[s.pc.toNat]? = some 0x00030210 ∧
      decode 0x00030210 = .ok (.add .r1 .r2 (.imm 3)) := by decide

-- the pc at N, and the pc at N - 1
theorem witness_FetchFollowsR62 :
    (State.reset.stop = .running ∧ State.reset.prog.length ≤ State.reset.pc.toNat) ∧
    ((oneWord 13).stop = .running ∧ (oneWord 13).pc.toNat < (oneWord 13).prog.length) := by decide

theorem witness_OpcodeFRaisesIllegalOp :
    permissive.stop = .running ∧ permissive.prog[permissive.pc.toNat]? = some 0x0000000F ∧
      (0x0000000F : InstrWord).extractLsb' 0 4 = 0xF := by decide

theorem witness_StoppedMachineIsFinal : { State.reset with stop := .halt }.stop ≠ .running := by decide

theorem witness_HandledFaultEntersItsVector :
    (permissive.stop = .running ∧ stepFault permissive = some .illegalOp ∧ permissive.ivt[2] ≠ 0) ∧
    (let s := { State.reset with ivt := State.reset.ivt.set 1 5 };
      s.stop = .running ∧ stepFault s = some .segFault ∧ s.ivt[1] ≠ 0) := by decide

theorem witness_UnhandledFaultStopsTheMachine :
    (State.reset.stop = .running ∧ stepFault State.reset = some .segFault ∧ State.reset.ivt[1] = 0) ∧
    (let s := oneWord 0x00003213;
      s.stop = .running ∧ stepFault s = some .illegalOp ∧ s.ivt[2] = 0) := by decide

theorem witness_NoOtherFaultIsRaised :
    let s := oneWord 0x0000000D
    s.stop = .running ∧ stepFault s = none ∧ step s = .next { s with stop := .halt } :=
  ⟨rfl, by decide, rfl⟩

theorem witness_ReservedRegisterUseRaisesIllegalOp :
    usesReserved (.branch 0 (.reg .r12)) State.reset ∧
    (¬ usesReserved (.assign .r1 12 13 0) State.reset ∧
      ownFault (.assign .r1 12 13 0) State.reset = none ∧
      ¬ runsHandler (.assign .r1 12 13 0) State.reset) :=
  ⟨by decide, by decide, by decide, no_handler rfl⟩

theorem witness_IllegalWidthWinsOverBounds : 4 ≤ (4 : Nibble).toNat ∧ 4 ≤ (15 : Nibble).toNat := by
  decide

theorem witness_AddFollowsR100 :
    rolesAllowed State.reset (roleFields (.add .pc .ones (.imm 1))) ∧
    rolesAllowed permissive (roleFields (.add .r12 .r13 (.reg .r12))) := by decide

theorem witness_SubFollowsR101 :
    rolesAllowed State.reset (roleFields (.sub .r1 .nul (.reg .ones))) := by decide

theorem witness_MulFollowsR102 :
    rolesAllowed State.reset (roleFields (.mul .r1 .r2 (.imm 0xFFFF))) := by decide

-- a divisor of 0, and the smallest other one
theorem witness_DivFollowsR103 :
    State.reset.readOperand (.imm 0) = 0 ∧
    (rolesAllowed State.reset (roleFields (.div .r1 .ones (.imm 1))) ∧
      State.reset.readOperand (.imm 1) ≠ 0) := by decide

theorem witness_AndFollowsR104 :
    rolesAllowed State.reset (roleFields (.and .r1 .r2 (.reg .flags))) := by decide

theorem witness_OrFollowsR105 :
    rolesAllowed State.reset (roleFields (.or .zero .r2 (.reg .pc))) := by decide

theorem witness_XorFollowsR106 :
    rolesAllowed State.reset (roleFields (.xor .r1 .r1 (.reg .r1))) := by decide

theorem witness_AddThenSubRestores :
    Reg.r6 ≠ .r4 ∧ Reg.r6 ≠ .flags ∧ Reg.r6 ≠ .pc ∧ rolesAllowed State.reset [Reg.r4, .r6] := by decide

theorem witness_DataIsLittleEndian : 8 ≤ 8 ∧ 7 < 8 := by decide

-- width codes 4 and 3; the last address in bounds for 8 bytes, and the first one out of bounds
theorem witness_LoadFollowsR120 :
    rolesAllowed State.reset (roleFields (.load 3 .r1 (.imm 65528))) ∧ 4 ≤ (4 : Nibble).toNat ∧
    (3 : Nibble).toNat < 4 ∧
    State.reset.segSize < (State.reset.readOperand (.imm 65529)).toNat + 2 ^ (3 : Nibble).toNat ∧
    (State.reset.readOperand (.imm 65528)).toNat + 2 ^ (3 : Nibble).toNat ≤ State.reset.segSize := by
  decide

theorem witness_StoreFollowsR121 :
    rolesAllowed State.reset (roleFields (.store 0 .r1 (.imm 65535))) ∧ 4 ≤ (15 : Nibble).toNat ∧
    (0 : Nibble).toNat < 4 ∧
    State.reset.segSize < (State.reset.readOperand (.reg .ones)).toNat + 2 ^ (0 : Nibble).toNat ∧
    (State.reset.readOperand (.imm 65535)).toNat + 2 ^ (0 : Nibble).toNat ≤ State.reset.segSize := by
  decide

theorem witness_StoreThenLoadReturnsTheValue :
    (2 : Nibble).toNat < 4 ∧ Operand.imm 100 ≠ .reg .pc ∧
    (State.reset.readOperand (.imm 100)).toNat + 2 ^ (2 : Nibble).toNat ≤ State.reset.segSize ∧
    rolesAllowed State.reset (roleFields (.store 2 .r1 (.imm 100))) ∧
    rolesAllowed State.reset [Reg.r2] := by decide

theorem witness_CompareFollowsR130 :
    rolesAllowed State.reset (roleFields (.compare .nul .ones (.imm 0xFFFF))) := by decide

-- one operand pair for each of less, equal and greater
theorem witness_CompareThenBranchDecidesSignedOrder :
    rolesAllowed State.reset (roleFields (.compare .r1 .ones (.imm 0))) ∧
    (State.reset.readReg .ones).toInt < (State.reset.readOperand (.imm 0)).toInt ∧
    (State.reset.readReg .zero).toInt = (State.reset.readOperand (.imm 0)).toInt ∧
    (State.reset.readOperand (.reg .ones)).toInt < (State.reset.readReg .zero).toInt := by decide

theorem witness_BranchFollowsR136 :
    rolesAllowed State.reset (roleFields (.branch 7 (.reg .r1))) ∧ (7 : Nibble).toNat < 8 ∧
    8 ≤ (8 : Nibble).toNat := by decide

theorem witness_MoveFollowsR140 :
    rolesAllowed State.reset (roleFields (.move .r1 (.reg .ones) 12)) ∧ 63 < 64 ∧
    (7 : Nibble).toNat < 8 ∧ ¬ (8 : Nibble).toNat < 8 := by decide

theorem witness_AssignFollowsR144 :
    (0 : Nibble).toNat < (1 : Nibble).toNat ∧
    rolesAllowed State.reset (roleFields (.assign .r1 12 12 0)) ∧
    (12 : Nibble).toNat ≤ (12 : Nibble).toNat := by decide

theorem witness_FourAssignsBuildAnyConstant :
    rolesAllowed State.reset [Reg.r1] ∧
    List.Perm (li64Parts .r1 0x0123456789ABCDEF).reverse (li64Parts .r1 0x0123456789ABCDEF) :=
  ⟨by decide, List.reverse_perm _⟩

theorem witness_PcMovesAsR36Says :
    instrFault (.branch 7 (.imm 0x8000)) State.reset = none ∧
    ¬ runsHandler (.branch 7 (.imm 0x8000)) State.reset := ⟨by decide, no_handler rfl⟩

theorem witness_InterruptFollowsR150 : (0 : Nibble) = 0 ∧ (1 : Nibble) ≠ 0 ∧ (15 : Nibble) ≠ 0 := by
  decide

-- a table that registers 0x42 and leaves 0x43 out
theorem witness_UnregisteredExtendedOnlyAdvances :
    (∀ e ∈ permissive.ext, e.1 ≠ (0x43 : BitVec 8)) ∧ permissive.handler 0x43 = hNop := by decide

theorem witness_RegisteredExtendedRunsItsHandler :
    permissive.handlersKeepContract ∧ permissive.handler 0x42 ≠ hNop := by decide

theorem witness_OnlyAStorageDestinationChanges :
    let s := State.reset
    let t := { s with gr := { s.gr with r1 := 3 }, pc := 1 }
    exec (.move .r1 (.imm 3) 0) s = .next t ∧ ¬ runsHandler (.move .r1 (.imm 3) 0) s ∧
      Reg.r1 ≠ .flags ∧ Reg.r1 ≠ .pc ∧ t.readReg .r1 ≠ s.readReg .r1 :=
  ⟨rfl, no_handler rfl, by decide, by decide, by decide⟩

-- a compare that completes, and a division by 0 that faults
theorem witness_FlagsChangeOnlyByTheirWriters :
    (exec (.compare .nul .r1 (.imm 0)) State.reset = .next { State.reset with flags := 2, pc := 1 } ∧
      ¬ runsHandler (.compare .nul .r1 (.imm 0)) State.reset) ∧
    (exec (.div .r1 .r2 (.imm 0)) State.reset = .next { State.reset with stop := .faultIllegal } ∧
      instrFault (.div .r1 .r2 (.imm 0)) State.reset ≠ none) :=
  ⟨⟨rfl, no_handler rfl⟩, rfl, by decide⟩

theorem witness_OnlyFlagReadersDependOnTheFlags :
    readsFlags (.branch 0 (.reg .r1)) = false ∧ ¬ runsHandler (.branch 0 (.reg .r1)) State.reset ∧
      exec (.branch 0 (.reg .r1)) State.reset = .next { State.reset with pc := 0 } :=
  ⟨by decide, no_handler rfl, rfl⟩

theorem witness_StepKeepsTablesAndLaunchInputs :
    step State.reset = .next { State.reset with stop := .faultSegv } := rfl

theorem witness_OnlyStoreChangesTheSegment :
    let t := { State.reset with seg := [(65535, 0xFF)], pc := 1 }
    exec (.store 0 .ones (.imm 65535)) State.reset = .next t ∧
      t.seg.read 65535 ≠ State.reset.seg.read 65535 := ⟨rfl, by decide⟩

theorem witness_MachineStopsOnlyByHaltOrUnhandledFault :
    let s := oneWord 0x0000000D
    let t := { s with stop := .halt }
    s.stop = .running ∧ step s = .next t ∧ t.stop ≠ .running := ⟨rfl, rfl, by decide⟩

theorem witness_MoreFuelKeepsTheEndOfARun :
    run 1 (oneWord 0x0000000D) = .stopped { oneWord 0x0000000D with stop := .halt } := by decide

theorem witness_LaunchCreatesTheStateOfR190 :
    let l := { launchWith setR1 with segSize := 2 ^ 64 }
    l.segSize ≤ 2 ^ 64 ∧ (15 : Nibble) ≠ 0 ∧
      ∀ code : BitVec 8, (l.extHandlers.handler code).keepsContract l.segSize l.policy = true := by
  decide

theorem witness_OversizedLaunchIsRefused :
    2 ^ 64 < { defaultLaunch with segSize := 2 ^ 64 + 1 }.segSize := by decide

theorem witness_EveryStepKeepsInv :
    (oneWord 0x0000000D).Inv ∧
    step (oneWord 0x0000000D) = .next { oneWord 0x0000000D with stop := .halt } :=
  ⟨by decide, rfl⟩

theorem witness_EveryHandlerFunctionHasATable :
    atStart.segFits 65536 ∧ nopOutcome atStart = .next { atStart with pc := 1 } ∧
      handlerContract 65536 .strict atStart { atStart with pc := 1 } := by decide

-- a launch that breaks the contract and one that keeps it, both with SEG_SIZE in range
theorem witness_LaunchRefusesExactlyHandlersThatBreakR154 :
    (launchWith stopsMachine).segSize ≤ 2 ^ 64 ∧
    ((launchWith stopsMachine).extHandlers.handler 0x42).answer 1 5 atStart =
      .next { atStart with stop := .halt } ∧
    ¬ handlerContract 65536 .strict atStart { atStart with stop := .halt } := by decide

theorem witness_LaunchedMachineAlwaysSteps :
    launch (launchWith setR1) = .ok (withHandler setR1) ∧ (withHandler setR1).Inv ∧
      (withHandler setR1).stop = .running := by decide

-- the handler of 0x42 past an entry of another code, and a value past one for another `d`
theorem witness_RegisteredHandlerIsTheOneDispatched :
    let s := { withHandler setR1 with ext := [(0x41, hNop), (0x42, setR1)] }
    s.ext = [(0x41, hNop)] ++ (0x42, setR1) :: [] ∧
    (∀ e ∈ [((0x41 : BitVec 8), hNop)], e.1 ≠ 0x42) ∧ s.handlersKeepContract ∧
    ¬ ((1 : Nibble) = 2 ∧ (5 : Imm16) = 5 ∧ atStart = atStart) := by decide

end Sys2Proof.Tests
end

/-! ## State: the register read rule and the reserved-register check

What the effect of an instruction does to the pc and to `stop` (R36, R40), and the two statements of
spec/10_state.md that follow. -/

namespace Sys2Proof.Machine

/-! ### The pc and the termination state after an effect -/

@[simp] theorem unspecifiedV_pc (l r : Word) (s : State) : (unspecifiedV l r s).pc = s.pc := rfl
@[simp] theorem unspecifiedV_stop (l r : Word) (s : State) : (unspecifiedV l r s).stop = s.stop := rfl

section
variable (f : Word → Word → Word) (setFlag : Word → Word → State → State) (d x : Reg) (y : Operand)
  (s : State)

/-- An ALU instruction advances from where its flag write leaves the pc (R107). -/
@[simp] theorem aluEffect_pc : (aluEffect f setFlag d x y s).pc =
    (setFlag (s.readReg x) (s.readOperand y)
      (s.writeReg d (f (s.readReg x) (s.readOperand y)))).pc + 1 := rfl

/-- Only its flag write could make an ALU instruction stop the machine (R107). -/
@[simp] theorem aluEffect_stop : (aluEffect f setFlag d x y s).stop =
    (setFlag (s.readReg x) (s.readOperand y)
      (s.writeReg d (f (s.readReg x) (s.readOperand y)))).stop := rfl

end

/-- The effect of an instruction moves the pc by the pc rule (R36). -/
theorem instrEffect_pc (i : Instr) (s : State) : (instrEffect i s).pc = pcAfter i s := by
  cases i with
  | add | sub | mul | div | and | or | xor | load | store | compare | move | assign | extended =>
    simp [instrEffect, pcAfter]
  | branch => rw [instrEffect, setPc_pc]
  | interrupt n =>
    rw [instrEffect, pcAfter]
    split
    · exact halt_pc s
    · exact setPc_pc s (s.vector n)

/-- The effect of an instruction stops the machine only where it is interrupt 0 (R40, R150). -/
theorem instrEffect_stop (i : Instr) (s : State) :
    (instrEffect i s).stop = if i = .interrupt 0 then .halt else s.stop := by
  cases i with
  | add | sub | mul | div | and | or | xor | load | store | compare | move | assign | extended
  | branch => simp [instrEffect]
  | interrupt n =>
    simp only [instrEffect, Instr.interrupt.injEq]
    split
    · exact halt_stop s
    · exact setPc_stop s (s.vector n)

/-! ### Settled statements -/

/-- Settles O14: the check stops a reserved use before the instruction's own rule is asked, and an
instruction that passes it raises only its own fault. -/
theorem reservedRegisterUseRaisesIllegalOp : Obligations.ReservedRegisterUseRaisesIllegalOp := by
  intro i s
  constructor
  · intro hu
    rw [exec_of_usesReserved hu, takeTrap_eq_trapTaken]
  · intro hu hown hh
    have hf : instrFault i s = none :=
      (instrFault_eq_ownFault (rolesAllowed_of_not_usesReserved hu)).trans hown
    exact ⟨instrEffect i s, exec_of_no_fault hf hh, instrEffect_pc i s, instrEffect_stop i s⟩

/-- Register `ones` reads the largest word (R9, R31). -/
theorem readReg_ones (s : State) : s.readReg .ones = BitVec.ofNat 64 (2 ^ 64 - 1) := by
  rw [State.readReg, ones64]
  decide

/-- Settles O39, one register at a time: every index but `ones` reads 0 or a field of the state by
the defining equation of `readReg`. -/
theorem registerReadFollowsR31 : Obligations.RegisterReadFollowsR31 := by
  intro s
  refine ⟨rfl, rfl, readReg_ones s, rfl, rfl, ?storage⟩
  case storage => exact ⟨rfl, rfl, rfl, rfl, rfl, rfl, rfl, rfl, rfl, rfl, rfl⟩

end Sys2Proof.Machine

/-! ## Memory: the bytes of an access and the fetch

What MemRead and MemWrite do to whole bytes (R55), what the fetch finds on either side of `N` (R62), and
the two statements of spec/20_memory.md that follow. -/

namespace Sys2Proof.Machine

/-! ### Several bytes, byte by byte -/

/-- Byte `k` of what MemRead returns (R55), for every `k`: past the `n` bytes read it is 0. -/
theorem Memory.extractByte_readBytes (m : Memory) (a n k : Nat) (hn : n ≤ 8) :
    (m.readBytes a n).extractLsb' (8 * k) 8 = if k < n then m.read (a + k) else 0 := by
  apply BitVec.eq_of_getLsbD_eq
  intro j hj
  have hbyte : (8 * k + j) / 8 = k := by omega
  have hbit : (8 * k + j) % 8 = j := by omega
  rw [BitVec.getLsbD_extractLsb', Memory.getLsbD_readBytes _ _ _ _ hn, hbyte, hbit]
  by_cases hk : k < n
  · have hin : 8 * k + j < 8 * n := by omega
    simp [hk, hin, hj]
  · have hout : ¬ 8 * k + j < 8 * n := by omega
    simp [hk, hout]

/-- The byte at `b` after MemWrite (R55), for every number of bytes written. -/
theorem Memory.read_writeBytes (m : Memory) (a n b : Nat) (v : Word) :
    (m.writeBytes a n v).read b =
      if a ≤ b ∧ b < a + n then v.extractLsb' (8 * (b - a)) 8 else m.read b := by
  by_cases hin : a ≤ b ∧ b < a + n
  · rw [if_pos hin]
    apply BitVec.eq_of_getLsbD_eq
    intro j hj
    rw [Memory.getLsbD_read_writeBytes _ _ _ _ _ _ hj, if_pos hin, BitVec.getLsbD_extractLsb']
    simp [hj]
  · rw [if_neg hin]
    exact Memory.read_writeBytes_outside m a n b v (by omega)

/-! ### The fetch on either side of `N` -/

/-- A pc at or past `N` fetches nothing (R62). -/
theorem fetchWord_of_length_le {s : State} (h : s.prog.length ≤ s.pc.toNat) : s.fetchWord = none :=
  List.getElem?_eq_none h

/-- A pc below `N` fetches word `pc` of the program (R62). -/
theorem fetchWord_of_lt_length {s : State} (h : s.pc.toNat < s.prog.length) :
    s.fetchWord = some s.prog[s.pc.toNat] :=
  List.getElem?_eq_getElem h

/-- A running machine that fetches nothing takes the SegFault trap (R62, R166). -/
theorem step_of_fetchWord_none {s : State} (hrun : s.stop = .running) (hnone : s.fetchWord = none) :
    step s = .next (s.takeTrap .segFault) := by
  have hfetch : s.fetchDecode = .raises .segFault := by
    rw [State.fetchDecode, if_pos hrun, hnone]
  rw [step, hfetch]

/-! ### Settled statements -/

/-- Settles O24: two bytes are equal when their bits are, and the bits of both accesses are known. -/
theorem dataIsLittleEndian : Obligations.DataIsLittleEndian :=
  ⟨fun m a n k hn _ => Memory.extractByte_readBytes m a n k hn,
    fun m a n b v _ => Memory.read_writeBytes m a n b v⟩

/-- Settles O8: the program's list answers none from its length on, and its own word below it. -/
theorem fetchFollowsR62 : Obligations.FetchFollowsR62 := by
  intro s hrun
  constructor
  · intro hpast
    rw [step_of_fetchWord_none hrun (fetchWord_of_length_le hpast), takeTrap_eq_trapTaken]
  · exact fetchWord_of_lt_length

end Sys2Proof.Machine

/-! ## Encoding: the worked examples and the opcode without an instruction

What the decoder answers on primary opcode 0xF (R85), what a step does with a word that does not decode,
and the two statements of spec/30_encoding.md that follow. -/

namespace Sys2Proof

/-- No row of the decoder is opcode 0xF (R85), whatever the other fields hold. -/
theorem decode_of_fieldOp_F {w : InstrWord} (hop : fieldOp w = 0xF) :
    decode w = .error .reservedOpcode := by
  simp [decode, hop]

end Sys2Proof

namespace Sys2Proof.Machine

/-- A running machine whose fetched word does not decode takes the IllegalOp trap (R85, R166). -/
theorem step_of_decode_error {s : State} {w : InstrWord} {e : DecodeError} (hrun : s.stop = .running)
    (hword : s.fetchWord = some w) (hdecode : decode w = .error e) :
    step s = .next (s.takeTrap .illegalOp) := by
  have hfetch : s.fetchDecode = .raises .illegalOp := by
    simp only [State.fetchDecode, if_pos hrun, hword, hdecode]
  rw [step, hfetch]

/-! ### Settled statements -/

/-- Settles O5, one example of R93 at a time: each reads and writes one closed word, so the decoder and
the encoder are evaluated on it. -/
theorem workedEncodingExamplesDecode : Obligations.WorkedEncodingExamplesDecode := by
  refine ⟨?addRegister, ?addImmediate, ?load, ?branchBack, ?assign, ?halt⟩
  case addRegister => exact ⟨rfl, rfl⟩
  case addImmediate => exact ⟨rfl, rfl⟩
  case load => exact ⟨rfl, rfl⟩
  case branchBack => exact ⟨rfl, rfl⟩
  case assign => exact ⟨rfl, rfl⟩
  case halt => exact ⟨rfl, rfl⟩

/-- Settles O9: bits 3:0 are the opcode field, so the word at the pc does not decode. -/
theorem opcodeFRaisesIllegalOp : Obligations.OpcodeFRaisesIllegalOp := by
  intro s w hrun hword hop
  rw [step_of_decode_error hrun hword (decode_of_fieldOp_F hop), takeTrap_eq_trapTaken]

end Sys2Proof.Machine

/-! ## ALU: the effect of an ALU instruction and the seven operations

What an instruction with a destination does where nothing faults, what a register write together with a
write of V leaves unchanged (R107 to R109), the values of the arithmetic operations as numbers, and the
statements of spec/40_alu.md that follow. -/

namespace Sys2Proof.Machine

/-! ### An instruction with a destination where nothing faults -/

/-- An instruction with a destination field is no `extended`, so it runs no supplied handler. -/
theorem not_runsHandler_of_destField {i : Instr} {s : State} {d : Reg} (hd : destField i = some d) :
    ¬ runsHandler i s := by
  rintro ⟨code, n, v, rfl, -⟩
  cases hd

/-- An instruction with a destination field that no check stops completes with its effect. -/
theorem exec_of_rolesAllowed {i : Instr} {s : State} {d : Reg} (hd : destField i = some d)
    (hroles : rolesAllowed s (roleFields i)) (hown : ownFault i s = none) :
    exec i s = .next (instrEffect i s) :=
  exec_of_no_fault ((instrFault_eq_ownFault hroles).trans hown) (not_runsHandler_of_destField hd)

/-! ### The destination, V and the frame -/

/-- A state whose flags are those of a write of V shows that write and keeps every other bit (R39). -/
theorem flags_of_withV {s t : State} {b : Bool} (h : t.flags = withV s.flags b) :
    t.flags.getLsbD 0 = b ∧ sameFlagsBut s t [0] := by
  rw [h]
  constructor
  · rw [getLsbD_withV, if_pos rfl]
  · intro i hi
    have hi0 : i ≠ 0 := by simpa using hi
    rw [h, getLsbD_withV, if_neg hi0]

section
variable {i : Instr} {f : Word → Word → Word} {d x : Reg} {y : Operand} {s : State} {v : Word}

theorem aluEffect_setV_flags (ovf : Word → Word → Bool) :
    (aluEffect f (fun l r t => t.setV (ovf l r)) d x y s).flags =
      withV s.flags (ovf (s.readReg x) (s.readOperand y)) := rfl

theorem aluEffect_unspecifiedV_flags : (aluEffect f unspecifiedV d x y s).flags =
    withV s.flags (Config.vdraw s.draws) := rfl

/-- An ALU instruction that computes V (R107): its destination and V, and the frame. -/
theorem exec_setV_frame {ovf : Word → Word → Bool}
    (hexec : exec i s = .next (aluEffect f (fun l r t => t.setV (ovf l r)) d x y s))
    (hv : f (s.readReg x) (s.readOperand y) = v) :
    ∃ t, exec i s = .next t ∧ writesReg s t d v ∧
      t.flags.getLsbD 0 = ovf (s.readReg x) (s.readOperand y) ∧
      sameFlagsBut s t [0] ∧ t.pc = s.pc + 1 ∧ sameMemory s t ∧ sameRest s t := by
  subst hv
  refine ⟨_, hexec, writesReg_of_gr rfl, ?_⟩
  obtain ⟨hV, hkept⟩ := flags_of_withV (aluEffect_setV_flags (f := f) (d := d) ovf)
  exact ⟨hV, hkept, rfl, fun _ => rfl, ⟨rfl, rfl, rfl, rfl, rfl⟩, rfl, rfl⟩

/-- An ALU instruction that leaves V unspecified (R108, R109): its destination, the draw, and the
frame. -/
theorem exec_unspecifiedV_frame (hexec : exec i s = .next (aluEffect f unspecifiedV d x y s))
    (hv : f (s.readReg x) (s.readOperand y) = v) :
    ∃ t, exec i s = .next t ∧ writesReg s t d v ∧
      t.flags.getLsbD 0 = Config.vdraw s.draws ∧ t.draws = s.draws + 1 ∧
      sameFlagsBut s t [0] ∧ t.pc = s.pc + 1 ∧ sameMemory s t ∧ sameTables s t ∧
      t.stop = s.stop := by
  subst hv
  refine ⟨_, hexec, writesReg_of_gr rfl, ?_⟩
  obtain ⟨hV, hkept⟩ := flags_of_withV (aluEffect_unspecifiedV_flags (f := f) (d := d))
  exact ⟨hV, rfl, hkept, rfl, fun _ => rfl, ⟨rfl, rfl, rfl, rfl, rfl⟩, rfl⟩

end

/-! ### Values and faults -/

/-- The difference of two words is their exact difference narrowed to 64 bits (R9, R101). -/
theorem sub_eq_ofInt (l r : Word) : l - r = BitVec.ofInt 64 (l.toNat - r.toNat) := by
  apply BitVec.eq_of_toNat_eq
  rw [BitVec.toNat_sub, BitVec.toNat_ofInt]
  omega

/-- The product of two words is their exact product narrowed to 64 bits (R9, R102). -/
theorem mul_eq_ofNat (l r : Word) : l * r = BitVec.ofNat 64 (l.toNat * r.toNat) :=
  BitVec.eq_of_toNat_eq (by rw [BitVec.toNat_mul, BitVec.toNat_ofNat])

/-- A divisor of 0 raises IllegalOp, whether or not the reserved-register check does so first (R103,
R168). -/
theorem instrFault_div_zero {d x : Reg} {y : Operand} {s : State} (h0 : s.readOperand y = 0) :
    instrFault (.div d x y) s = some .illegalOp := by
  rw [instrFault]
  split
  · rfl
  · exact if_pos h0

/-! ### Settled statements -/

/-- Settles O16: V is `addWraps`, which decides the bound on the exact sum. -/
theorem addFollowsR100 : Obligations.AddFollowsR100 := by
  refine ⟨by simp [decode], fun d x y s hroles => ?_⟩
  obtain ⟨t, hexec, hdest, hV, hframe⟩ := exec_setV_frame (i := .add d x y)
    (exec_of_rolesAllowed rfl hroles rfl) (BitVec.add_def _ _)
  exact ⟨t, hexec, hdest, by rw [hV, addWraps, decide_eq_true_iff], hframe⟩

/-- Settles O17: V is `subBorrows`, which decides whether left is below right. -/
theorem subFollowsR101 : Obligations.SubFollowsR101 := by
  refine ⟨by simp [decode], fun d x y s hroles => ?_⟩
  obtain ⟨t, hexec, hdest, hV, hframe⟩ := exec_setV_frame (i := .sub d x y)
    (exec_of_rolesAllowed rfl hroles rfl) (sub_eq_ofInt _ _)
  exact ⟨t, hexec, hdest, by rw [hV, subBorrows, decide_eq_true_iff], hframe⟩

/-- Settles O18: the product written is the exact one narrowed. -/
theorem mulFollowsR102 : Obligations.MulFollowsR102 := by
  refine ⟨by simp [decode], fun d x y s hroles => ?_⟩
  exact exec_unspecifiedV_frame (exec_of_rolesAllowed rfl hroles rfl) (mul_eq_ofNat _ _)

/-- Settles O19, by whether the divisor is 0: then the instruction faults, and otherwise it has no
fault of its own. -/
theorem divFollowsR103 : Obligations.DivFollowsR103 := by
  refine ⟨by simp [decode], fun d x y s => ⟨fun h0 => ?zero, fun hroles h0 => ?nonzero⟩⟩
  case zero => rw [exec_of_instrFault (instrFault_div_zero h0), takeTrap_eq_trapTaken]
  case nonzero =>
    exact exec_unspecifiedV_frame (exec_of_rolesAllowed rfl hroles (if_neg h0)) BitVec.udiv_def

/-- Settles O20: the word written is the and of the operands, known bit by bit. -/
theorem andFollowsR104 : Obligations.AndFollowsR104 := by
  refine ⟨by simp [decode], fun d x y s hroles => ?_⟩
  obtain ⟨t, hexec, hframe⟩ := exec_unspecifiedV_frame (i := .and d x y)
    (exec_of_rolesAllowed rfl hroles rfl) rfl
  exact ⟨t, _, hexec, fun _ => BitVec.getLsbD_and, hframe⟩

/-- Settles O21: the word written is the or of the operands, known bit by bit. -/
theorem orFollowsR105 : Obligations.OrFollowsR105 := by
  refine ⟨by simp [decode], fun d x y s hroles => ?_⟩
  obtain ⟨t, hexec, hframe⟩ := exec_unspecifiedV_frame (i := .or d x y)
    (exec_of_rolesAllowed rfl hroles rfl) rfl
  exact ⟨t, _, hexec, fun _ => BitVec.getLsbD_or, hframe⟩

/-- Settles O22: the word written is the exclusive or of the operands, known bit by bit. -/
theorem xorFollowsR106 : Obligations.XorFollowsR106 := by
  refine ⟨by simp [decode], fun d x y s hroles => ?_⟩
  obtain ⟨t, hexec, hframe⟩ := exec_unspecifiedV_frame (i := .xor d x y)
    (exec_of_rolesAllowed rfl hroles rfl) rfl
  exact ⟨t, _, hexec, fun _ => BitVec.getLsbD_xor, hframe⟩

end Sys2Proof.Machine

/-! ## Memory access: the faults of an access and the bytes it moves

The checks that load and store share (R125, R161, R162), each of the two where they pass, the bytes that
come back from where they were stored, and the statements of spec/41_memory_access.md that follow. -/

namespace Sys2Proof.Machine

/-! ### The checks that load and store share -/

/-- The fault of a load or a store by its width code and its address (R125): the width code is asked
first (R168). -/
def accessFault (width : Nibble) (y : Operand) (s : State) : Option Trap :=
  if 4 ≤ width.toNat then some .illegalOp
  else if s.segSize < (s.readOperand y).toNat + 2 ^ width.toNat then some .segFault
  else none

/-- An instruction that the reserved-register check lets pass takes the trap of its own fault (R165). -/
theorem exec_of_ownFault {i : Instr} {s : State} {k : Trap} (hroles : rolesAllowed s (roleFields i))
    (hown : ownFault i s = some k) : exec i s = .next (trapTaken s k) := by
  rw [exec_of_instrFault ((instrFault_eq_ownFault hroles).trans hown), takeTrap_eq_trapTaken]

section
variable {width : Nibble} {x : Reg} {y : Operand} {s : State}

theorem ownFault_load : ownFault (.load width x y) s = accessFault width y s := rfl

theorem ownFault_store : ownFault (.store width x y) s = accessFault width y s := rfl

theorem accessFault_of_illegalWidth (hw : 4 ≤ width.toNat) :
    accessFault width y s = some .illegalOp :=
  if_pos hw

theorem accessFault_of_past_end (hw : width.toNat < 4)
    (hpast : s.segSize < (s.readOperand y).toNat + 2 ^ width.toNat) :
    accessFault width y s = some .segFault := by
  rw [accessFault, if_neg (Nat.not_le.mpr hw), if_pos hpast]

theorem accessFault_of_inBounds (hw : width.toNat < 4)
    (hin : (s.readOperand y).toNat + 2 ^ width.toNat ≤ s.segSize) : accessFault width y s = none := by
  rw [accessFault, if_neg (Nat.not_le.mpr hw), if_neg (Nat.not_lt.mpr hin)]

/-- A legal width is at most the 8 bytes of a register (R77). -/
theorem two_pow_width_le (hw : width.toNat < 4) : 2 ^ width.toNat ≤ 8 :=
  Nat.pow_le_pow_right (j := 3) (by decide) (Nat.le_of_lt_succ hw)

/-! ### Load and store where no check fails -/

/-- A load inside the segment with a legal width completes with its effect (R120). -/
theorem exec_load_of_inBounds (hroles : rolesAllowed s (roleFields (.load width x y)))
    (hw : width.toNat < 4) (hin : (s.readOperand y).toNat + 2 ^ width.toNat ≤ s.segSize) :
    exec (.load width x y) s = .next (instrEffect (.load width x y) s) :=
  exec_of_rolesAllowed rfl hroles (ownFault_load.trans (accessFault_of_inBounds hw hin))

/-- A store inside the segment with a legal width completes with its effect (R121). -/
theorem exec_store_of_inBounds (hroles : rolesAllowed s (roleFields (.store width x y)))
    (hw : width.toNat < 4) (hin : (s.readOperand y).toNat + 2 ^ width.toNat ≤ s.segSize) :
    exec (.store width x y) s = .next (instrEffect (.store width x y) s) := by
  have hfault : instrFault (.store width x y) s = none :=
    (instrFault_eq_ownFault hroles).trans (ownFault_store.trans (accessFault_of_inBounds hw hin))
  have hhandler : ¬ runsHandler (.store width x y) s := by
    rintro ⟨_, _, _, hext, -⟩
    cases hext
  exact exec_of_no_fault hfault hhandler

end

/-! ### What a store leaves for a load -/

/-- Byte `k` stored is byte `k` of the value (R55). -/
theorem Memory.read_writeBytes_inside {n k : Nat} (m : Memory) (a : Nat) (v : Word) (hk : k < n) :
    (m.writeBytes a n v).read (a + k) = v.extractLsb' (8 * k) 8 := by
  rw [Memory.read_writeBytes, if_pos (by omega), Nat.add_sub_cancel_left]

/-- The bytes read back from where they were written are the low bytes of the value, zero-extended
(R124). -/
theorem Memory.readBytes_writeBytes (m : Memory) (a n : Nat) (v : Word) (hn : n ≤ 8) :
    (m.writeBytes a n v).readBytes a n = BitVec.ofNat 64 (v.toNat % 2 ^ (8 * n)) := by
  apply BitVec.eq_of_getLsbD_eq
  intro i hi
  rw [Memory.getLsbD_readBytes _ _ _ _ hn,
    Memory.getLsbD_read_writeBytes _ _ _ _ _ _ (Nat.mod_lt i (by decide)), BitVec.getLsbD_ofNat,
    Nat.testBit_mod_two_pow, BitVec.testBit_toNat, Nat.add_sub_cancel_left, Nat.div_add_mod]
  by_cases hread : i < 8 * n
  · rw [if_pos (by omega)]
    simp [hi]
  · simp [hread]

/-- An operand but the pc register depends on the storage registers and the flags alone. -/
theorem readOperand_congr {s t : State} {y : Operand} (hgr : t.gr = s.gr) (hflags : t.flags = s.flags)
    (hy : y ≠ .reg .pc) : t.readOperand y = s.readOperand y := by
  cases y with
  | imm v => rfl
  | reg r =>
    by_cases hr : r = .flags
    · rw [hr]
      exact hflags
    · exact readReg_congr_gr hgr hr fun hpc => hy (congrArg _ hpc)

/-- A state with the same storage registers shows the same registers. -/
theorem sameRegs_of_gr {s t : State} (h : t.gr = s.gr) : sameRegs s t := fun _ => readReg_congr_gr h

/-- A store does not move its own address, unless the address is the pc (R124). -/
theorem readOperand_instrEffect_store {width : Nibble} {x : Reg} {y : Operand} {s : State}
    (hy : y ≠ .reg .pc) :
    (instrEffect (.store width x y) s).readOperand y = s.readOperand y :=
  readOperand_congr rfl rfl hy

/-- What a load reads at the address of a store of its width (R124). -/
theorem loadBytes_instrEffect_store {width : Nibble} {x : Reg} {y : Operand} {s : State}
    (hw : width.toNat < 4) :
    (instrEffect (.store width x y) s).loadBytes (s.readOperand y) (2 ^ width.toNat) =
      BitVec.ofNat 64 ((s.readReg x).toNat % 2 ^ (8 * 2 ^ width.toNat)) :=
  Memory.readBytes_writeBytes _ _ _ _ (two_pow_width_le hw)

/-- The check lets a list of fields pass where it lets its head and its tail pass (R33). -/
theorem rolesAllowed_cons {s : State} {r : Reg} {roles : List Reg} :
    rolesAllowed s (r :: roles) ↔ rolesAllowed s [r] ∧ rolesAllowed s roles := by
  simp only [rolesAllowed, List.mem_cons, List.not_mem_nil, or_false, not_or]
  tauto

/-- A list of instructions goes on from where its first one leaves the machine. -/
theorem execAll_cons_of_next {i : Instr} {s t : State} (h : exec i s = .next t) (rest : List Instr) :
    execAll (i :: rest) s = execAll rest t := by
  rw [execAll, h]

/-! ### Settled statements -/

/-- Settles O26: the two checks of `accessFault` give the traps, and the word a load writes is known
byte by byte. -/
theorem loadFollowsR120 : Obligations.LoadFollowsR120 := by
  refine ⟨by simp [decode], fun width x y s hroles =>
    ⟨fun hw => ?illegal, fun hw hpast => ?past, fun hw hin => ?complete⟩⟩
  case illegal => exact exec_of_ownFault hroles (accessFault_of_illegalWidth hw)
  case past => exact exec_of_ownFault hroles (accessFault_of_past_end hw hpast)
  case complete =>
    refine ⟨_, _, exec_load_of_inBounds hroles hw hin, fun k _ => ?bytes, writesReg_of_gr rfl, ?frame⟩
    case bytes => exact Memory.extractByte_readBytes _ _ _ k (two_pow_width_le hw)
    case frame => exact ⟨rfl, rfl, fun _ => rfl, ⟨rfl, rfl, rfl, rfl, rfl⟩, rfl, rfl⟩

/-- Settles O27: the traps are those of a load, and MemWrite is known byte by byte inside and outside
the bytes it stores to. -/
theorem storeFollowsR121 : Obligations.StoreFollowsR121 := by
  refine ⟨by simp [decode], fun width x y s hroles =>
    ⟨fun hw => ?illegal, fun hw hpast => ?past, fun hw hin => ?complete⟩⟩
  case illegal => exact exec_of_ownFault hroles (accessFault_of_illegalWidth hw)
  case past => exact exec_of_ownFault hroles (accessFault_of_past_end hw hpast)
  case complete =>
    refine ⟨_, exec_store_of_inBounds hroles hw hin, fun k hk => ?inside, fun a ha => ?outside, ?frame⟩
    case inside => exact Memory.read_writeBytes_inside _ _ _ hk
    case outside => exact Memory.read_writeBytes_outside _ _ _ _ _ ha
    case frame =>
      exact ⟨sameRegs_of_gr rfl, rfl, rfl, ⟨rfl, rfl, rfl, rfl, rfl⟩, rfl, rfl⟩

/-- Settles O28: the store keeps the operand and the checks, so the load reads the bytes just
written. -/
theorem storeThenLoadReturnsTheValue : Obligations.StoreThenLoadReturnsTheValue := by
  intro width x d y s hw hy hin hstore hd
  have haddr := readOperand_instrEffect_store (width := width) (x := x) (s := s) hy
  have hload : rolesAllowed (instrEffect (.store width x y) s) (roleFields (.load width d y)) :=
    rolesAllowed_cons.mpr ⟨hd, (rolesAllowed_cons.mp hstore).2⟩
  refine ⟨instrEffect (.load width d y) (instrEffect (.store width x y) s), ?run, ?dest⟩
  case run =>
    rw [execAll_cons_of_next (exec_store_of_inBounds hstore hw hin),
      execAll_cons_of_next (exec_load_of_inBounds hload hw (haddr.symm ▸ hin)), execAll]
  case dest =>
    refine writesReg_of_gr ?_
    rw [← loadBytes_instrEffect_store hw, ← haddr]
    rfl

end Sys2Proof.Machine

/-! ## Control transfer: compare, branch, move and assign

What an instruction that writes one register and advances leaves unchanged, the values of compare, move
and assign bit by bit (R130, R140, R144), lists of assigns that write bits of one constant (R146), and the
statements of spec/42_control_transfer.md that follow. -/

namespace Sys2Proof.Machine

/-! ### A register write and a new pc -/

section
variable {i : Instr} {d : Reg} {s : State} {v w a b : Word}

/-- An instruction whose whole effect is a register write and a new pc: the destination and the frame. -/
theorem writeReg_setPc_frame :
    writesReg s ((s.writeReg d v).setPc a) d v ∧ ((s.writeReg d v).setPc a).flags = s.flags ∧
      ((s.writeReg d v).setPc a).pc = a ∧ sameMemory s ((s.writeReg d v).setPc a) ∧
      sameRest s ((s.writeReg d v).setPc a) :=
  ⟨writesReg_of_gr rfl, rfl, rfl, fun _ => rfl, ⟨rfl, rfl, rfl, rfl, rfl⟩, rfl, rfl⟩

theorem writeReg_advance : (s.writeReg d v).advance = (s.writeReg d v).setPc (s.pc + 1) := rfl

/-- Of two writes to one register, and of two new pcs, the last one counts. -/
theorem writeReg_setPc_again :
    (((s.writeReg d v).setPc a).writeReg d w).setPc b = (s.writeReg d w).setPc b := by
  cases d <;> rfl

/-- Writing a register's own value and the machine's own pc changes nothing. -/
theorem writeReg_readReg_setPc_pc : (s.writeReg d (s.readReg d)).setPc s.pc = s := by
  cases d <;> rfl

/-- A storage register reads what was written to it (R32). -/
theorem readReg_writeReg_setPc (hd : isStorage d = true) :
    ((s.writeReg d v).setPc a).readReg d = v := by
  have hflags : d ≠ .flags := by rintro rfl; cases hd
  have hpc : d ≠ .pc := by rintro rfl; cases hd
  obtain ⟨hdest, -⟩ := writeReg_setPc_frame (s := s) (d := d) (v := v) (a := a)
  rw [hdest d hflags hpc, if_pos ⟨rfl, hd⟩]

/-- A destination that is no storage register shows no value, so any value describes its write. -/
theorem writesReg_congr {t : State} (h : writesReg s t d v) (hvw : isStorage d = true → v = w) :
    writesReg s t d w := by
  intro r hf hp
  rw [h r hf hp]
  by_cases hrd : r = d ∧ isStorage d = true
  · rw [if_pos hrd, if_pos hrd, hvw hrd.2]
  · rw [if_neg hrd, if_neg hrd]

/-- An instruction whose own rule raises IllegalOp raises it whether or not the reserved-register check
does so first (R168). -/
theorem exec_of_ownFault_illegalOp (hown : ownFault i s = some .illegalOp) :
    exec i s = .next (trapTaken s .illegalOp) := by
  have hfault : instrFault i s = some .illegalOp := by
    rw [instrFault, hown, ite_self]
  rw [exec_of_instrFault hfault, takeTrap_eq_trapTaken]

end

/-! ### Compare -/

/-- The value compare writes, in the signed order alone (R130). -/
theorem cmpValue_eq (l r : Word) : cmpValue l r =
    if l.toInt < r.toInt then BitVec.ofInt 64 (-1) else if l.toInt = r.toInt then 0 else 1 := by
  simp [cmpValue, cmpLess, cmpEqual, ones64, BitVec.toInt_inj]

/-- A state whose flags are those of a write of Z and N shows that write and keeps every other bit
(R39). -/
theorem flags_of_withZN {s t : State} {z n : Bool} (h : t.flags = withZN s.flags z n) :
    t.flags.getLsbD 1 = z ∧ t.flags.getLsbD 2 = n ∧ sameFlagsBut s t [1, 2] := by
  refine ⟨?z, ?n, fun j hj => ?kept⟩
  case z => rw [h, getLsbD_withZN, if_neg (by decide), if_pos rfl]
  case n => rw [h, getLsbD_withZN, if_pos rfl]
  case kept =>
    obtain ⟨h1, h2⟩ : j ≠ 1 ∧ j ≠ 2 := by simpa using hj
    rw [h, getLsbD_withZN, if_neg h2, if_neg h1]

/-! ### Branch -/

theorem not_runsHandler_branch {c : Nibble} {y : Operand} {s : State} :
    ¬ runsHandler (.branch c y) s := by
  rintro ⟨_, _, _, hext, -⟩
  cases hext

/-! ### The shift of move, bit by bit -/

/-- The top bit of a shift selector says whether it is one of 8 to 15 (R79). -/
theorem shiftSelector_getLsbD_three (sel : Nibble) : sel.getLsbD 3 = decide (8 ≤ sel.toNat) := by
  revert sel; decide

theorem shiftBy_of_lt {sel : Nibble} (h : sel.toNat < 8) (v : Word) :
    shiftBy sel v = v <<< sel.toNat := by
  rw [shiftBy, shiftSelector_getLsbD_three, decide_eq_false (Nat.not_le.mpr h), Nat.mod_eq_of_lt h]
  rfl

theorem shiftBy_of_ge {sel : Nibble} (h : 8 ≤ sel.toNat) (v : Word) :
    shiftBy sel v = v >>> (sel.toNat - 8) := by
  have hamt : sel.toNat % 8 = sel.toNat - 8 := by omega
  rw [shiftBy, shiftSelector_getLsbD_three, decide_eq_true h, hamt]
  rfl

/-- Everything the shift of move does (R140). -/
theorem getLsbD_shiftBy (sel : Nibble) (v : Word) {k : Nat} (hk : k < 64) :
    (shiftBy sel v).getLsbD k =
      if sel.toNat < 8 then decide (sel.toNat ≤ k) && v.getLsbD (k - sel.toNat)
      else v.getLsbD (k + (sel.toNat - 8)) := by
  by_cases h : sel.toNat < 8
  · rw [if_pos h, shiftBy_of_lt h, BitVec.getLsbD_shiftLeft]
    simp only [hk, decide_true, Bool.true_and, ← decide_not, Nat.not_lt]
  · rw [if_neg h, shiftBy_of_ge (Nat.le_of_not_lt h), BitVec.getLsbD_ushiftRight, Nat.add_comm]

/-! ### The bit range of assign, bit by bit -/

/-- The bits of the register that the range `x` to `y` of an assign names (R80). -/
abbrev inAssignRange (x y : Nibble) (k : Nat) : Prop := 4 * x.toNat ≤ k ∧ k ≤ 4 * y.toNat + 3

/-- The mask of assign holds the bits of its range (R80). -/
theorem getLsbD_assignMask {x y : Nibble} (hxy : x.toNat ≤ y.toNat) {k : Nat} (hk : k < 64) :
    (assignMask x y).getLsbD k = decide (inAssignRange x y k) := by
  rw [assignMask, BitVec.getLsbD_shiftLeft, BitVec.getLsbD_ofNat, Nat.testBit_two_pow_sub_one]
  by_cases hlo : k < 4 * x.toNat
  · simp [hlo, Nat.not_le.mpr hlo]
  · have hwidth : k - 4 * x.toNat < 4 * y.toNat + 3 - 4 * x.toNat + 1 ↔ k ≤ 4 * y.toNat + 3 := by
      omega
    have hin : k - 4 * x.toNat < 64 := by omega
    simp [hk, hlo, Nat.le_of_not_lt hlo, hwidth, hin]

/-- Everything assign does to the register's old value (R144). -/
theorem getLsbD_assignValue {x y : Nibble} (hxy : x.toNat ≤ y.toNat) (old : Word) (v : Imm16)
    {k : Nat} (hk : k < 64) :
    (assignValue old x y v).getLsbD k =
      if inAssignRange x y k then v.getLsbD (k - 4 * x.toNat) else old.getLsbD k := by
  rw [assignValue, BitVec.getLsbD_or, BitVec.getLsbD_and, BitVec.getLsbD_not, BitVec.getLsbD_and,
    BitVec.getLsbD_shiftLeft, BitVec.getLsbD_setWidth, getLsbD_assignMask hxy hk]
  by_cases hin : inAssignRange x y k
  · have hlo : ¬ k < 4 * x.toNat := Nat.not_lt.mpr hin.1
    have hsub : k - 4 * x.toNat < 64 := by omega
    simp [hin, hk, hlo, hsub]
  · simp [hin, hk]

/-- An assign whose range is not inverted completes: the destination written, the pc moved on (R144). -/
theorem exec_assign {d : Reg} {x y : Nibble} {v : Imm16} {s : State} (hroles : rolesAllowed s [d])
    (hxy : x.toNat ≤ y.toNat) :
    exec (.assign d x y v) s =
      .next ((s.writeReg d (assignValue (s.readReg d) x y v)).setPc (s.pc + 1)) :=
  exec_of_rolesAllowed rfl hroles (if_neg (Nat.not_lt.mpr hxy))

/-! ### Assigns that write bits of one constant -/

/-- The instruction is an assign to `d` whose range, not inverted, gets the bits of `k` at the same
places. -/
def assignsBitsOf (d : Reg) (k : Word) : Instr → Prop
  | .assign r x y v => r = d ∧ x.toNat ≤ y.toNat ∧
      ∀ j, inAssignRange x y j → v.getLsbD (j - 4 * x.toNat) = k.getLsbD j
  | _ => False

/-- The instruction is an assign with bit `j` in its range. -/
def coversBit (j : Nat) : Instr → Prop
  | .assign _ x y _ => inAssignRange x y j
  | _ => False

/-- Sixteen bits of a constant, assigned to a range of at most sixteen bits that starts where they
do. -/
theorem assignsBitsOf_extractLsb' (d : Reg) (k : Word) {x y : Nibble} {start : Nat}
    (hstart : 4 * x.toNat = start) (hxy : x.toNat ≤ y.toNat) (hwidth : 4 * y.toNat + 3 < start + 16) :
    assignsBitsOf d k (.assign d x y (k.extractLsb' start 16)) := by
  refine ⟨rfl, hxy, fun j hj => ?_⟩
  obtain ⟨hlo, hhi⟩ := hj
  have hin : j - start < 16 := by omega
  have hat : start + (j - start) = j := by omega
  rw [hstart, BitVec.getLsbD_extractLsb', hat, decide_eq_true hin, Bool.true_and]

theorem assignsBitsOf_li64Parts (d : Reg) (k : Word) : ∀ i ∈ li64Parts d k, assignsBitsOf d k i := by
  intro i hi
  simp only [li64Parts, List.mem_cons, List.not_mem_nil, or_false] at hi
  rcases hi with rfl | rfl | rfl | rfl <;>
    exact assignsBitsOf_extractLsb' d k (by decide) (by decide) (by decide)

/-- Every bit of a word lies in the range of one of the four assigns (R146). -/
theorem exists_li64Parts_coversBit (d : Reg) (k : Word) {j : Nat} (hj : j < 64) :
    ∃ i ∈ li64Parts d k, coversBit j i := by
  have hquarter : inAssignRange 0x0 0x3 j ∨ inAssignRange 0x4 0x7 j ∨ inAssignRange 0x8 0xB j ∨
      inAssignRange 0xC 0xF j := by
    change (0 ≤ j ∧ j ≤ 15) ∨ (16 ≤ j ∧ j ≤ 31) ∨ (32 ≤ j ∧ j ≤ 47) ∨ (48 ≤ j ∧ j ≤ 63)
    omega
  simpa [li64Parts, coversBit] using hquarter

/-- A list of assigns that write bits of `k` to `d`, in any order and with any overlap, writes a word
that shows `k` at every bit where the register did so before or one of the assigns has it in its range:
each assign keeps the bits that agree with `k`. -/
theorem execAll_of_assignsBitsOf {d : Reg} {k : Word} {parts : List Instr} {s : State}
    (hroles : rolesAllowed s [d]) (hparts : ∀ i ∈ parts, assignsBitsOf d k i) :
    ∃ v, execAll parts s = .next ((s.writeReg d v).setPc (s.pc + BitVec.ofNat 64 parts.length)) ∧
      (isStorage d = true → ∀ j, j < 64 →
        (s.readReg d).getLsbD j = k.getLsbD j ∨ (∃ i ∈ parts, coversBit j i) →
        v.getLsbD j = k.getLsbD j) := by
  induction parts generalizing s with
  | nil =>
    refine ⟨s.readReg d, ?_, fun _ j _ hj => by simpa using hj⟩
    rw [List.length_nil, BitVec.add_zero, writeReg_readReg_setPc_pc, execAll]
  | cons i rest ih =>
    obtain ⟨hi, hrest⟩ := List.forall_mem_cons.mp hparts
    cases i with
    | assign r x y u =>
      obtain ⟨rfl, hxy, hbits⟩ := hi
      have hfirst := exec_assign (v := u) hroles hxy
      obtain ⟨v, hrun, hv⟩ :=
        ih (s := (s.writeReg r (assignValue (s.readReg r) x y u)).setPc (s.pc + 1)) hroles hrest
      refine ⟨v, ?run, fun hd j hj hagree => hv hd j hj ?agree⟩
      case run =>
        have hpc : s.pc + 1 + BitVec.ofNat 64 rest.length =
            s.pc + BitVec.ofNat 64 (rest.length + 1) := by
          rw [Nat.add_comm, BitVec.ofNat_add, BitVec.add_assoc]
          rfl
        rw [execAll_cons_of_next hfirst, hrun, writeReg_setPc_again, setPc_pc, hpc, List.length_cons]
      case agree =>
        rw [readReg_writeReg_setPc hd, getLsbD_assignValue hxy _ _ hj]
        by_cases hin : inAssignRange x y j
        · exact .inl (by rw [if_pos hin, hbits j hin])
        · rw [if_neg hin]
          refine hagree.imp_right fun hcov => ?_
          have hcases := (List.exists_mem_cons_iff ..).mp hcov
          exact hcases.resolve_left hin
    | _ => cases hi

/-! ### Settled statements -/

/-- Settles O29: the signed comparison decides the value, Z and N. -/
theorem compareFollowsR130 : Obligations.CompareFollowsR130 := by
  refine ⟨by simp [decode], fun d x y s hroles => ?_⟩
  have hexec : exec (.compare d x y) s = .next (instrEffect (.compare d x y) s) :=
    exec_of_rolesAllowed rfl hroles rfl
  obtain ⟨hZ, hN, hkept⟩ := flags_of_withZN (s := s) (t := instrEffect (.compare d x y) s) rfl
  refine ⟨_, hexec, ?dest, ?Z, ?N, hkept, rfl, fun _ => rfl, ⟨rfl, rfl, rfl, rfl, rfl⟩, rfl, rfl⟩
  case dest =>
    rw [← cmpValue_eq]
    exact writesReg_of_gr rfl
  case Z => rw [hZ, cmpEqual, decide_eq_true_iff]
  case N => rw [hN, cmpLess, decide_eq_true_iff]

/-- Settles O31, by whether the condition code is defined: the rule of its own raises IllegalOp where
it is not, and otherwise the effect of a branch is a new pc. -/
theorem branchFollowsR136 : Obligations.BranchFollowsR136 := by
  refine ⟨by simp [decode], fun c y s hroles => ⟨fun hc => ?undefined, fun hc => ?defined⟩⟩
  case undefined => exact exec_of_ownFault_illegalOp (if_pos hc)
  case defined =>
    have hfault : instrFault (.branch c y) s = none :=
      (instrFault_eq_ownFault hroles).trans (if_neg (Nat.not_le.mpr hc))
    exact exec_of_no_fault hfault not_runsHandler_branch

/-- Settles O32: the word written is the shifted source, known bit by bit. -/
theorem moveFollowsR140 : Obligations.MoveFollowsR140 := by
  refine ⟨by simp [decode], fun d x sh s hroles => ?_⟩
  have hexec : exec (.move d x sh) s = .next (instrEffect (.move d x sh) s) :=
    exec_of_rolesAllowed rfl hroles rfl
  rw [instrEffect, writeReg_advance] at hexec
  exact ⟨_, _, hexec, fun _ hk => getLsbD_shiftBy sh _ hk, writeReg_setPc_frame⟩

/-- Settles O33, by whether the range is inverted: then the rule of its own raises IllegalOp, and
otherwise the word written is known bit by bit. -/
theorem assignFollowsR144 : Obligations.AssignFollowsR144 := by
  refine ⟨by simp [decode], fun d x y v s => ⟨fun hinv => ?inverted, fun hroles hxy => ?complete⟩⟩
  case inverted => exact exec_of_ownFault_illegalOp (if_pos hinv)
  case complete =>
    exact ⟨_, _, exec_assign hroles hxy, fun _ hk => getLsbD_assignValue hxy _ v hk,
      writeReg_setPc_frame⟩

/-- Settles O34: the four assigns write bits of the constant, and in whatever order they stand, every
bit lies in the range of one of them. -/
theorem fourAssignsBuildAnyConstant : Obligations.FourAssignsBuildAnyConstant := by
  intro d k parts s hroles hperm
  obtain ⟨v, hrun, hv⟩ := execAll_of_assignsBitsOf hroles fun i hi =>
    assignsBitsOf_li64Parts d k i (hperm.mem_iff.mp hi)
  have hbuilt : isStorage d = true → v = k := fun hd =>
    BitVec.eq_of_getLsbD_eq fun j hj => by
      obtain ⟨i, hi, hcovers⟩ := exists_li64Parts_coversBit d k hj
      exact hv hd j hj (.inr ⟨i, hperm.mem_iff.mpr hi, hcovers⟩)
  rw [hperm.length_eq] at hrun
  obtain ⟨hdest, hframe⟩ := writeReg_setPc_frame (d := d) (s := s) (v := v)
  exact ⟨_, hrun, writesReg_congr hdest hbuilt, hframe⟩

end Sys2Proof.Machine

/-! ## interrupt and extended

The two outcomes of interrupt (R150), an extended opcode whose table has nothing to run (R153), and the
statements of spec/43_interrupt_extended.md that follow. -/

namespace Sys2Proof.Machine

/-! ### Interrupt -/

/-- Vector 0 halts, whatever its entry holds (R150). -/
theorem exec_interrupt_zero (s : State) : exec (.interrupt 0) s = .next s.halt := rfl

/-- Every other vector jumps to its entry, an entry of 0 included (R150, R151). -/
theorem exec_interrupt_of_ne_zero {n : Nibble} (hn : n ≠ 0) (s : State) :
    exec (.interrupt n) s = .next (s.setPc (s.vector n)) := by
  rw [exec, execInterrupt, if_neg hn]

/-! ### Extended with nothing to run -/

/-- An extended opcode that the state's table leaves out only advances (R153). -/
theorem exec_extended_of_left_out {code : BitVec 8} {s : State} (h : ∀ e ∈ s.ext, e.1 ≠ code)
    (d : Nibble) (v : Imm16) : exec (.extended code d v) s = .next s.advance :=
  exec_extended_nop (ExtTable.handler_of_left_out h)

/-- The default table is empty, so it leaves every code out (R44, R153). -/
theorem reset_handler (code : BitVec 8) : State.reset.handler code = hNop := rfl

/-! ### Settled statements -/

/-- Settles O36, by whether the vector is 0: the two outcomes are a halt and a new pc. -/
theorem interruptFollowsR150 : Obligations.InterruptFollowsR150 := by
  refine ⟨by simp [decode], fun n s => ⟨?halts, ?jumps⟩⟩
  case halts =>
    rintro rfl
    exact exec_interrupt_zero s
  case jumps =>
    intro hn
    exact exec_interrupt_of_ne_zero hn s

/-- Settles O37: a code that a table leaves out has the no-op handler there, whose answer keeps the
handler contract and so is taken as it stands. -/
theorem unregisteredExtendedOnlyAdvances : Obligations.UnregisteredExtendedOnlyAdvances := by
  refine ⟨?encoding, ?answer, ?leftOut, reset_handler, ?execLeftOut, ?execNop⟩
  case encoding => simp [decode]
  case answer => exact Handler.answer_hNop
  case leftOut => exact fun _ _ h => ExtTable.handler_of_left_out h
  case execLeftOut => exact fun _ d v _ h => exec_extended_of_left_out h d v
  case execNop => exact fun _ _ _ _ h => exec_extended_nop h

end Sys2Proof.Machine

/-! ## Faults and traps

A fault of the step is delivered in that step, wherever it is raised (R165, R166), and the statement of
spec/60_exceptions.md that follows. -/

namespace Sys2Proof.Machine

/-! ### The step in the terms of the fault table -/

/-- A running machine whose fetched word decodes executes the instruction (R193). -/
theorem step_of_decode_ok {s : State} {w : InstrWord} {i : Instr} (hrun : s.stop = .running)
    (hword : s.fetchWord = some w) (hdecode : decode w = .ok i) : step s = exec i s := by
  have hfetch : s.fetchDecode = .instr i := by
    simp only [State.fetchDecode, if_pos hrun, hword, hdecode]
  rw [step, hfetch]

/-- Below `N` the fetch finds the word that the fault table looks at (R62). -/
theorem fetchWord_eq_getD {s : State} (h : s.pc.toNat < s.prog.length) :
    s.fetchWord = some (s.prog.getD s.pc.toNat 0) := by
  rw [fetchWord_of_lt_length h, List.getD_eq_getElem _ _ h]

/-- A fault that the table lists for the step is the trap the step takes, whether the fetch, the opcode
or the instruction raises it (R161, R162, R165). -/
theorem step_of_stepFault {s : State} {k : Trap} (hrun : s.stop = .running)
    (hfault : stepFault s = some k) : step s = .next (trapTaken s k) := by
  rw [← takeTrap_eq_trapTaken]
  unfold stepFault at hfault
  by_cases hpast : s.prog.length ≤ s.pc.toNat
  case pos =>
    rw [if_pos hpast] at hfault
    cases hfault
    exact step_of_fetchWord_none hrun (fetchWord_of_length_le hpast)
  case neg =>
    have hword := fetchWord_eq_getD (Nat.not_le.mp hpast)
    rw [if_neg hpast] at hfault
    cases hdecode : decode (s.prog.getD s.pc.toNat 0) with
    | error e =>
      rw [hdecode] at hfault
      cases hfault
      exact step_of_decode_error hrun hword hdecode
    | ok i =>
      rw [hdecode] at hfault
      rw [step_of_decode_ok hrun hword hdecode]
      exact exec_of_instrFault hfault

/-! ### Settled statements -/

/-- Settles O11: the step takes the trap of its fault, and with the vector entry set the trap only moves
the pc to that entry (R166). -/
theorem handledFaultEntersItsVector : Obligations.HandledFaultEntersItsVector := by
  intro s hrun
  constructor
  · intro hfault hset
    rw [step_of_stepFault hrun hfault, trapTaken, if_neg hset]
  · intro hfault hset
    rw [step_of_stepFault hrun hfault, trapTaken, if_neg hset]

end Sys2Proof.Machine

/-! ## Reset: the machine of a launch

The machine a launch creates and what it holds (R190), and the statement of
spec/70_reset_and_hazards.md that follows. -/

namespace Sys2Proof.Machine

/-! ### A launch that is not refused -/

/-- The machine of a launch: the reset values with the launch's inputs in place, IVT entry 0 cleared
(R43, R190). `launch_of_keepsContract` ties it to `launch`. -/
def Launch.machine (l : Launch) : State :=
  { State.reset with
    prog := l.prog, ivt := l.ivtInit.set 0 0, segSize := l.segSize, policy := l.policy
    ext := l.extHandlers }

/-- A launch in range whose handlers keep their contract creates its machine (R48, I20). -/
theorem launch_of_keepsContract {l : Launch} (hsize : l.segSize ≤ Config.maxSegSize)
    (hkeeps : ∀ code : BitVec 8,
      (l.extHandlers.handler code).keepsContract l.segSize l.policy = true) :
    launch l = .ok l.machine := by
  have hbroken : l.extHandlers.broken l.segSize l.policy = none :=
    ExtTable.broken_eq_none_iff.mpr fun entry _ => hkeeps entry.1
  rw [launch, if_pos hsize, hbroken]
  rfl

/-! ### What the machine of a launch holds -/

/-- The registers of the machine: every one has its reset value 0, but the constant `ones` (R31, R190). -/
theorem readReg_launchMachine (l : Launch) (r : Reg) :
    l.machine.readReg r = if r = .ones then BitVec.allOnes 64 else 0 := by
  cases r with
  | ones => exact readReg_ones l.machine
  | _ => rfl

/-- A vector entry of the machine is the entry of `IVT_INIT` with entry 0 cleared (R41). -/
theorem vector_launchMachine (l : Launch) (n : Nibble) :
    l.machine.vector n = (l.ivtInit.set 0 0)[n.toNat]'n.isLt := rfl

theorem vector_launchMachine_zero (l : Launch) : l.machine.vector 0 = 0 :=
  (vector_launchMachine l 0).trans (Vector.getElem_set_self (by decide))

theorem vector_launchMachine_of_ne_zero (l : Launch) {n : Nibble} (hn : n ≠ 0) :
    l.machine.vector n = l.ivtInit[n.toNat]'n.isLt := by
  have hpos : 0 ≠ n.toNat := fun h => hn (BitVec.eq_of_toNat_eq h.symm)
  exact (vector_launchMachine l n).trans (Vector.getElem_set_ne (by decide) n.isLt hpos)

/-! ### Settled statements -/

/-- Settles O47: the launch is not refused, so it creates its machine, whose registers and vector
entries are the lemmas above; every other field is the one R190 names. -/
theorem launchCreatesTheStateOfR190 : Obligations.LaunchCreatesTheStateOfR190 := by
  intro l hsize hkeeps
  have hlaunch : launch l = .ok l.machine := launch_of_keepsContract hsize hkeeps
  refine ⟨l.machine, hlaunch, readReg_launchMachine l, ?flags, ?pc, ?seg,
    vector_launchMachine_zero l, fun n hn => vector_launchMachine_of_ne_zero l hn, ?rest⟩
  case flags => rfl
  case pc => rfl
  case seg => exact fun _ => rfl
  case rest => exact ⟨rfl, rfl, rfl, rfl, rfl⟩

end Sys2Proof.Machine

/-! ## Encoding: the round trips of decoder and encoder

The row of the opcode map that a word of given fields belongs to (R83), the fields it ignores (R88), a
program as a string of bytes (R65), and the statements of spec/30_encoding.md and spec/20_memory.md that
follow. -/

namespace Sys2Proof

/-! ### Round trips -/

/-- The 8-bit code of extended is its two nibbles, `x` above `y` (R73). -/
theorem code_eq_append_nibbles (code : BitVec 8) :
    code.extractLsb' 4 4 ++ code.extractLsb' 0 4 = code := by
  rw [BitVec.extractLsb'_append_extractLsb'_eq_extractLsb' (by rfl), BitVec.extractLsb'_eq_self]

/-- The low nibble of an extended code (R73). -/
theorem extractLsb'_append_low (x y : Nibble) : (x ++ y).extractLsb' 0 4 = y := by
  revert x y; decide

/-- The high nibble of an extended code (R73). -/
theorem extractLsb'_append_high (x y : Nibble) : (x ++ y).extractLsb' 4 4 = x := by
  revert x y; decide

/-- A 4-bit field is the literal of its number. -/
theorem eq_ofNat_toNat (n : Nibble) : n = BitVec.ofNat 4 n.toNat := by
  rw [BitVec.ofNat_toNat, BitVec.setWidth_eq]

/-- Settles O1, one row of the opcode map at a time: the fields of the packed word are read back, and
a well-formed operand is read back from its two fields. -/
theorem decodeEncodeRoundTrip : Obligations.DecodeEncodeRoundTrip := by
  intro i hwf
  cases i with
  | add | sub | mul | div | and | or | xor | load | store | compare | branch | move =>
    simp [encode, decode, Operand.ofFields_fields hwf]
  | assign | interrupt => simp [encode, decode]
  | extended code d v =>
    simp [encode, decode, code_eq_append_nibbles]

/-- The two parts of O2 for the word of given fields, by the row its opcode selects. -/
theorem encode_of_decode_packFields {op d x y : Nibble} {v : Imm16} {i : Instr}
    (h : decode (packFields op d x y v) = .ok i) :
    i.wellFormed ∧ encode i = canonicalWord (packFields op d x y v) := by
  simp only [decode, fieldOp_packFields, fieldD_packFields, fieldX_packFields, fieldY_packFields,
    fieldV_packFields] at h
  split at h
  all_goals cases h -- opcode 0xF has no row, and goes
  all_goals
    next hop =>
    have hlit := eq_ofNat_toNat op
    rw [hop] at hlit
    subst hlit
    simp [encode, canonicalWord, Instr.wellFormed, Operand.ofFields_wellFormed,
      extractLsb'_append_low, extractLsb'_append_high]

/-- Settles O2: every word is the packing of its fields. -/
theorem encodeDecodeClearsIgnoredFields : Obligations.EncodeDecodeClearsIgnoredFields := by
  intro w i h
  rw [← packFields_fields w] at h ⊢
  exact encode_of_decode_packFields h

/-! ### Ignored fields -/

/-- A selector field that names a register ignores the immediate (R74, R88). -/
theorem Operand.ofFields_of_ne_zero {sel : Nibble} (h : sel ≠ 0) (v : Imm16) :
    Operand.ofFields sel v = .reg (Reg.ofField sel) :=
  if_neg h

/-- Up to opcode 0xA the immediate field is read through the selectable operand `y` alone (R73). -/
theorem decode_congr_operand {op d x y : Nibble} {v v' : Imm16} (hop : op.toNat ≤ 10)
    (h : Operand.ofFields y v = Operand.ofFields y v') :
    decode (packFields op d x y v) = decode (packFields op d x y v') := by
  simp only [decode, fieldOp_packFields, fieldD_packFields, fieldX_packFields, fieldY_packFields,
    fieldV_packFields, h]
  generalize op.toNat = n at hop
  interval_cases n <;> rfl

/-- Settles O3: the decoder looks at an ignored field in none of the four cases; in the first and the
third a register selector hides the immediate. -/
theorem ignoredFieldsDoNotChangeDecoding : Obligations.IgnoredFieldsDoNotChangeDecoding := by
  refine ⟨fun op d x y v v' hop hy => ?selectY, fun d x x' y v => ?branch,
    fun d x y v v' hx => ?selectX, fun d x x' y y' v v' => ?interrupt⟩
  case selectY =>
    exact decode_congr_operand hop
      ((Operand.ofFields_of_ne_zero hy v).trans (Operand.ofFields_of_ne_zero hy v').symm)
  case branch => simp [decode]
  case selectX => simp [decode, Operand.ofFields_of_ne_zero hx]
  case interrupt => simp [decode]

/-! ### The words that decode -/

/-- Every word with a primary opcode below 0xF belongs to a row of the opcode map (R86). -/
theorem exists_decode_of_fieldOp_ne {w : InstrWord} (h : fieldOp w ≠ 0xF) : ∃ i, decode w = .ok i := by
  have hop : (fieldOp w).toNat < 15 := by
    have hne : (fieldOp w).toNat ≠ 15 := fun h15 => h (BitVec.eq_of_toNat_eq h15)
    have := (fieldOp w).isLt
    omega
  unfold decode
  generalize (fieldOp w).toNat = n at hop
  interval_cases n <;> exact ⟨_, rfl⟩

/-- Settles O4: bits 3:0 are the opcode field. -/
theorem decoderRefusesExactlyOpcodeF : Obligations.DecoderRefusesExactlyOpcodeF :=
  fun _ => ⟨decode_of_fieldOp_F, exists_decode_of_fieldOp_ne⟩

/-! ### Programs as bytes -/

/-- The bytes of a program's first word, before those of the others (R65). -/
theorem programOfBytes_wordToBytes_append (w : InstrWord) (bytes : List Byte) :
    programOfBytes (wordToBytes w ++ bytes) = (programOfBytes bytes).map (w :: ·) := by
  simp only [wordToBytes, List.cons_append, List.nil_append, programOfBytes, wordOfBytes_bytes]
  cases programOfBytes bytes <;> rfl

@[simp] theorem length_wordToBytes (w : InstrWord) : (wordToBytes w).length = 4 := rfl

/-- Byte `k` of a word is its bits `8k` to `8k + 7` (R65). -/
theorem getElem?_wordToBytes (w : InstrWord) {k : Nat} (hk : k < 4) :
    (wordToBytes w)[k]? = some (w.extractLsb' (8 * k) 8) := by
  interval_cases k <;> rfl

/-- Words kept as bytes are read back. -/
theorem programOfBytes_flatMap (ws : List InstrWord) :
    programOfBytes (ws.flatMap wordToBytes) = some ws := by
  induction ws with
  | nil => rfl
  | cons w ws ih =>
    rw [List.flatMap_cons, programOfBytes_wordToBytes_append, ih, Option.map_some]

/-- Byte `k` of word `i` of a program stands at byte `4i + k` (R65). -/
theorem getElem?_flatMap_wordToBytes {ws : List InstrWord} {i k : Nat} {w : InstrWord}
    (hw : ws[i]? = some w) (hk : k < 4) :
    (ws.flatMap wordToBytes)[4 * i + k]? = some (w.extractLsb' (8 * k) 8) := by
  induction ws generalizing i with
  | nil => cases hw
  | cons w' ws ih =>
    rw [List.flatMap_cons]
    cases i with
    | zero =>
      obtain rfl : w' = w := Option.some.inj hw
      rw [Nat.mul_zero, Nat.zero_add, List.getElem?_append_left hk, getElem?_wordToBytes _ hk]
    | succ i =>
      have hpast : (wordToBytes w').length ≤ 4 * (i + 1) + k := by
        rw [length_wordToBytes]; omega
      have hat : 4 * (i + 1) + k - (wordToBytes w').length = 4 * i + k := by
        rw [length_wordToBytes]; omega
      rw [List.getElem?_append_right hpast, hat]
      exact ih hw

/-- Settles O6, by induction on the program: its first word takes up the first four bytes. -/
theorem programBytesReadBack : Obligations.ProgramBytesReadBack :=
  fun ws => ⟨programOfBytes_flatMap ws, fun _ _ _ => getElem?_flatMap_wordToBytes⟩

end Sys2Proof

/-! ## The whole machine: what an effect changes

What the effect of an instruction does to each state element (R30, R32, R39, R45), a step to a next state
as one of three things, and the statements about every instruction that follow. -/

namespace Sys2Proof.Machine

/-! ### The state elements after an effect -/

section
variable (i : Instr) (s : State)

/-- The effect of an instruction writes the storage registers through its destination field alone
(R32, R73). -/
theorem instrEffect_gr :
    (∃ d v, destField i = some d ∧ (instrEffect i s).gr = writeGpr s.gr v d) ∨
    (instrEffect i s).gr = s.gr := by
  cases i with
  | add | sub | mul | div | and | or | xor | load | compare | move | assign =>
    exact .inl ⟨_, _, rfl, rfl⟩
  | store | branch | extended => exact .inr rfl
  | interrupt n =>
    refine .inr ?_
    rw [instrEffect, apply_ite State.gr, halt_gr, setPc_gr, ite_self]

/-- The effect of an instruction writes V where it is an ALU instruction, Z and N where it is a compare,
and no other flags bit (R39). -/
theorem instrEffect_flags :
    (i.opcode.toNat ≤ 6 ∧ ∃ b, (instrEffect i s).flags = withV s.flags b) ∨
    ((∃ d x y, i = .compare d x y) ∧ ∃ z n, (instrEffect i s).flags = withZN s.flags z n) ∨
    (instrEffect i s).flags = s.flags := by
  cases i with
  | add | sub | mul | div | and | or | xor => exact .inl ⟨Nat.le_of_ble_eq_true rfl, _, rfl⟩
  | compare d x y => exact .inr (.inl ⟨⟨d, x, y, rfl⟩, _, _, rfl⟩)
  | load | store | branch | move | assign | extended => exact .inr (.inr rfl)
  | interrupt n =>
    refine .inr (.inr ?_)
    rw [instrEffect, apply_ite State.flags, halt_flags, setPc_flags, ite_self]

/-- The effect of an instruction leaves the segment as it is, unless it is a store (R45, R50). -/
theorem instrEffect_seg :
    (∃ width x y, i = .store width x y ∧ (instrEffect i s).seg =
      s.seg.writeBytes (s.readOperand y).toNat (2 ^ width.toNat) (s.readReg x)) ∨
    (instrEffect i s).seg = s.seg := by
  cases i with
  | store width x y => exact .inl ⟨width, x, y, rfl, rfl⟩
  | add | sub | mul | div | and | or | xor | load | compare | branch | move | assign | extended =>
    exact .inr rfl
  | interrupt n =>
    refine .inr ?_
    rw [instrEffect, apply_ite State.seg, halt_seg, setPc_seg, ite_self]

/-- The effect of an instruction changes no table and no launch parameter (R43, R44, R46). -/
theorem instrEffect_sameTables : sameTables s (instrEffect i s) := by
  cases i with
  | add | sub | mul | div | and | or | xor | load | store | compare | branch | move | assign
  | extended => exact ⟨rfl, rfl, rfl, rfl, rfl⟩
  | interrupt n =>
    rw [instrEffect]
    split <;> exact ⟨rfl, rfl, rfl, rfl, rfl⟩

end

/-- Neither a trap changes a table or a launch parameter (R165). -/
theorem takeTrap_sameTables (s : State) (k : Trap) : sameTables s (s.takeTrap k) :=
  ⟨takeTrap_ivt s k, takeTrap_prog s k, takeTrap_segSize s k, takeTrap_policy s k, takeTrap_ext s k⟩

/-- Nor does a supplied handler that keeps the contract (R154). -/
theorem withMachine_sameTables {s : State} {m : MachineState}
    (h : handlerContract s.segSize s.policy s.machine m) : sameTables s (s.withMachine m) := by
  obtain ⟨-, hivt, -⟩ := h
  exact ⟨hivt, rfl, rfl, rfl, rfl⟩

/-! ### A destination and an address without a fault -/

/-- The destination field is a register-role field (R75). -/
theorem mem_roleFields_of_destField {i : Instr} {d : Reg} (h : destField i = some d) :
    d ∈ roleFields i := by
  cases i <;> simp_all [destField, roleFields]

/-- An access without a fault has a legal width and lies inside the segment (R53, R77). -/
theorem inBounds_of_accessFault {width : Nibble} {y : Operand} {s : State}
    (h : accessFault width y s = none) :
    width.toNat < 4 ∧ (s.readOperand y).toNat + 2 ^ width.toNat ≤ s.segSize := by
  unfold accessFault at h
  split at h
  · cases h
  next hw =>
    split at h
    · cases h
    next hin => exact ⟨Nat.not_le.mp hw, Nat.not_lt.mp hin⟩

/-- A store without a fault has a legal width and lies inside the segment (R121). -/
theorem inBounds_of_instrFault_store {width : Nibble} {x : Reg} {y : Operand} {s : State}
    (h : instrFault (.store width x y) s = none) :
    width.toNat < 4 ∧ (s.readOperand y).toNat + 2 ^ width.toNat ≤ s.segSize :=
  inBounds_of_accessFault ((instrFault_eq_ownFault (rolesAllowed_of_instrFault h)).symm.trans h)

/-! ### The flags after an instruction -/

/-- The effect of an instruction keeps flags bits 63:3 (R39). -/
theorem instrEffect_flags_upper (i : Instr) (s : State) :
    (instrEffect i s).flags >>> 3 = s.flags >>> 3 := by
  rcases instrEffect_flags i s with ⟨-, b, hf⟩ | ⟨-, z, n, hf⟩ | hf
  · rw [hf, withV_upper]
  · rw [hf, withZN_upper]
  · rw [hf]

/-- Executing an instruction to a next state keeps flags bits 63:3 (R39). -/
theorem exec_flags_upper {i : Instr} {s t : State} (h : exec i s = .next t) :
    t.flags >>> 3 = s.flags >>> 3 := by
  rcases exec_next_cases h with ⟨k, -, rfl⟩ | ⟨-, -, rfl⟩ | ⟨-, -, m, hcontract, rfl⟩
  · rw [takeTrap_flags]
  · exact instrEffect_flags_upper i s
  · obtain ⟨-, -, hupper, -⟩ := hcontract
    exact hupper

/-- The effect of an instruction changes Z and N only in a compare, and V only in an ALU instruction
(R39). -/
theorem instrEffect_flag_writers (i : Instr) (s : State) :
    ((instrEffect i s).flags.getLsbD 1 = s.flags.getLsbD 1 ∧
      (instrEffect i s).flags.getLsbD 2 = s.flags.getLsbD 2 ∨ ∃ d x y, i = .compare d x y) ∧
    ((instrEffect i s).flags.getLsbD 0 = s.flags.getLsbD 0 ∨ i.opcode.toNat ≤ 6) := by
  rcases instrEffect_flags i s with ⟨halu, b, hf⟩ | ⟨hcompare, z, n, hf⟩ | hf
  · obtain ⟨-, hkept⟩ := flags_of_withV hf
    exact ⟨.inl ⟨hkept 1 (by decide), hkept 2 (by decide)⟩, .inr halu⟩
  · obtain ⟨-, -, hkept⟩ := flags_of_withZN hf
    exact ⟨.inr hcompare, .inl (hkept 0 (by decide))⟩
  · rw [hf]
    exact ⟨.inl ⟨rfl, rfl⟩, .inl rfl⟩

/-! ### Settled statements -/

/-- Settles O35: the instruction completes with its effect, which moves the pc by the rule. -/
theorem pcMovesAsR36Says : Obligations.PcMovesAsR36Says :=
  fun i s hfault hhandler =>
    ⟨instrEffect i s, exec_of_no_fault hfault hhandler, instrEffect_pc i s⟩

/-- Settles O40: a trap keeps the storage registers, and an effect writes the one its destination field
names. -/
theorem onlyAStorageDestinationChanges : Obligations.OnlyAStorageDestinationChanges := by
  intro i s t r hexec hhandler hflags hpc hchanged
  rcases exec_next_cases hexec with ⟨k, -, rfl⟩ | ⟨-, -, rfl⟩ | ⟨-, hruns, -⟩
  · exact absurd (readReg_congr_gr (takeTrap_gr s k) hflags hpc) hchanged
  · rcases instrEffect_gr i s with ⟨d, v, hdest, hgr⟩ | hgr
    · have hwrites := writesReg_of_gr hgr r hflags hpc
      by_cases hrd : r = d ∧ isStorage d = true
      · obtain ⟨rfl, hstorage⟩ := hrd
        exact ⟨hdest, hstorage⟩
      · rw [if_neg hrd] at hwrites
        exact absurd hwrites hchanged
    · exact absurd (readReg_congr_gr hgr hflags hpc) hchanged
  · exact absurd hruns hhandler

/-- Settles O41: a trap keeps the flags, and an effect writes the bits its instruction writes. -/
theorem flagsChangeOnlyByTheirWriters : Obligations.FlagsChangeOnlyByTheirWriters := by
  intro i s t hexec
  refine ⟨exec_flags_upper hexec, ?_⟩
  rcases exec_next_cases hexec with ⟨k, -, rfl⟩ | ⟨hnone, -, rfl⟩ | ⟨hnone, hruns, -⟩
  · rw [takeTrap_flags]
    exact ⟨fun _ => rfl, fun _ => ⟨.inl ⟨rfl, rfl⟩, .inl rfl⟩⟩
  · exact ⟨fun hfault => absurd hnone hfault, fun _ => instrEffect_flag_writers i s⟩
  · exact ⟨fun hfault => absurd hnone hfault, fun hhandler => absurd hruns hhandler⟩

/-- Settles O44: a trap keeps the segment, and an effect is a store inside its bounds or keeps it. -/
theorem onlyStoreChangesTheSegment : Obligations.OnlyStoreChangesTheSegment := by
  intro i s t a hexec hchanged
  rcases exec_next_cases hexec with ⟨k, -, rfl⟩ | ⟨hnone, -, rfl⟩ | ⟨-, hruns, -⟩
  · exact absurd (congrArg (Memory.read · a) (takeTrap_seg s k)) hchanged
  · rcases instrEffect_seg i s with ⟨width, x, y, rfl, hseg⟩ | hseg
    · obtain ⟨hwidth, -⟩ := inBounds_of_instrFault_store hnone
      refine .inr ⟨width, x, y, rfl, hwidth, ?_⟩
      by_contra hout
      rw [hseg, Memory.read_writeBytes_outside _ _ _ _ _ (by omega)] at hchanged
      exact hchanged rfl
    · exact absurd (congrArg (Memory.read · a) hseg) hchanged
  · exact .inl hruns

end Sys2Proof.Machine

/-! ## The whole machine: the readers of the flags

What reads, faults and effects do on the same state with other flags (R39). -/

namespace Sys2Proof.Machine

/-! ### The same state with other flags -/

/-- A change of the state that the flags it starts from affect in the flags alone. -/
abbrev ignoresFlags (u : State → State) : Prop :=
  ∀ (s : State) (f : Word), ∃ g, u (s.setFlags f) = (u s).setFlags g

section
variable {s : State} (f : Word)

theorem readReg_setFlags {r : Reg} (h : r ≠ .flags) : (s.setFlags f).readReg r = s.readReg r := by
  cases r with
  | flags => exact absurd rfl h
  | _ => rfl

theorem readOperand_setFlags {y : Operand} (h : y ≠ .reg .flags) :
    (s.setFlags f).readOperand y = s.readOperand y := by
  cases y with
  | imm v => rfl
  | reg r => exact readReg_setFlags f fun hr => h (congrArg _ hr)

/-- A trap neither reads nor writes the flags (R165). -/
theorem takeTrap_setFlags (k : Trap) : (s.setFlags f).takeTrap k = (s.takeTrap k).setFlags f := by
  unfold State.takeTrap
  rw [setFlags_vector]
  split <;> rfl

/-- No fault depends on the flags, where the flags are no source and no supplied handler runs. -/
theorem instrFault_setFlags {i : Instr} (hreads : readsFlags i = false) (hhandler : ¬ runsHandler i s) :
    instrFault i (s.setFlags f) = instrFault i s := by
  have hown : ownFault i (s.setFlags f) = ownFault i s := by
    cases i with
    | add | sub | mul | and | or | xor | compare | move | interrupt | branch | assign => rfl
    | div d x y | load width x y | store width x y =>
      have hy : y ≠ .reg .flags := by simp_all [readsFlags]
      simp only [ownFault, readOperand_setFlags f hy, setFlags_segSize]
    | extended code d v =>
      have hnop : s.handler code = hNop := by_contra fun h => hhandler ⟨code, d, v, rfl, h⟩
      have hnop' : (s.setFlags f).handler code = hNop := hnop
      rw [ownFault, ownFault, hnop, hnop', Handler.answer_hNop, Handler.answer_hNop]
      rfl
  unfold instrFault
  rw [hown]
  rfl

end

/-- An ALU instruction with neither source the flags uses them only in its flag write. -/
theorem aluEffect_ignoresFlags {op : Word → Word → Word} {setFlag : Word → Word → State → State}
    {d x : Reg} {y : Operand} (hset : ∀ l r, ignoresFlags (setFlag l r)) (hx : x ≠ .flags)
    (hy : y ≠ .reg .flags) : ignoresFlags (aluEffect op setFlag d x y) := by
  intro s f
  obtain ⟨g, hg⟩ := hset (s.readReg x) (s.readOperand y)
    (s.writeReg d (op (s.readReg x) (s.readOperand y))) f
  refine ⟨g, ?_⟩
  unfold aluEffect
  rw [readReg_setFlags f hx, readOperand_setFlags f hy]
  exact congrArg State.advance hg

theorem setV_ignoresFlags (b : Bool) : ignoresFlags (State.setV · b) :=
  fun _ f => ⟨withV f b, rfl⟩

theorem unspecifiedV_ignoresFlags (l r : Word) : ignoresFlags (unspecifiedV l r) :=
  fun s f => ⟨withV f (Config.vdraw s.draws), rfl⟩

/-- A branch that tests no flag goes to one pc whatever the flags hold (R78). -/
theorem pcAfter_branch_setFlags {c : Nibble} {y : Operand} {s : State} (f : Word)
    (hc : c.toNat < 8) (hreads : readsFlags (.branch c y) = false) :
    pcAfter (.branch c y) (s.setFlags f) = pcAfter (.branch c y) s := by
  simp only [readsFlags, Bool.or_eq_false_iff, Bool.and_eq_false_iff, decide_eq_false_iff_not] at hreads
  obtain ⟨htests, hy⟩ := hreads
  have hc0 : c.toNat = 0 := by omega
  have htarget := readOperand_setFlags (s := s) f hy
  simp only [pcAfter, hc0]
  cases y with
  | imm v => rfl
  | reg r => exact htarget

/-- An instruction that completes and reads no flag uses the flags only for the flags (R39). -/
theorem instrEffect_setFlags {i : Instr} {s : State} (f : Word) (hreads : readsFlags i = false)
    (hfault : instrFault i s = none) :
    ∃ g, instrEffect i (s.setFlags f) = (instrEffect i s).setFlags g := by
  cases i with
  | add d x y | sub d x y =>
    obtain ⟨hx, hy⟩ : x ≠ .flags ∧ y ≠ .reg .flags := by simpa [readsFlags] using hreads
    exact aluEffect_ignoresFlags (fun l r => setV_ignoresFlags _) hx hy s f
  | mul d x y | div d x y | and d x y | or d x y | xor d x y =>
    obtain ⟨hx, hy⟩ : x ≠ .flags ∧ y ≠ .reg .flags := by simpa [readsFlags] using hreads
    exact aluEffect_ignoresFlags unspecifiedV_ignoresFlags hx hy s f
  | load width x y =>
    have hy : y ≠ .reg .flags := by simpa [readsFlags] using hreads
    refine ⟨f, ?_⟩
    rw [instrEffect, readOperand_setFlags f hy]
    rfl
  | store width x y =>
    obtain ⟨hx, hy⟩ : x ≠ .flags ∧ y ≠ .reg .flags := by simpa [readsFlags] using hreads
    refine ⟨f, ?_⟩
    rw [instrEffect, readReg_setFlags f hx, readOperand_setFlags f hy]
    rfl
  | compare d x y =>
    obtain ⟨hx, hy⟩ : x ≠ .flags ∧ y ≠ .reg .flags := by simpa [readsFlags] using hreads
    refine ⟨withZN f (cmpEqual (s.readReg x) (s.readOperand y))
      (cmpLess (s.readReg x) (s.readOperand y)), ?_⟩
    rw [instrEffect, readReg_setFlags f hx, readOperand_setFlags f hy]
    rfl
  | branch c y =>
    have hc : ¬ 8 ≤ c.toNat := fun hc => by
      rw [instrFault_eq_ownFault (rolesAllowed_of_instrFault hfault), ownFault, if_pos hc] at hfault
      cases hfault
    refine ⟨f, ?_⟩
    rw [instrEffect, pcAfter_branch_setFlags f (Nat.not_le.mp hc) hreads]
    rfl
  | move d x shift =>
    have hx : x ≠ .reg .flags := by simpa [readsFlags] using hreads
    refine ⟨f, ?_⟩
    rw [instrEffect, readOperand_setFlags f hx]
    rfl
  | assign d x y v =>
    refine ⟨f, ?_⟩
    by_cases hd : d = .flags
    · subst hd
      rfl
    · rw [instrEffect, readReg_setFlags f hd]
      rfl
  | interrupt n =>
    refine ⟨f, ?_⟩
    rw [instrEffect, instrEffect, setFlags_vector]
    split <;> rfl
  | extended => exact ⟨f, rfl⟩

/-! ### Settled statements -/

/-- Settles O42: with other flags the instruction raises the same fault or none, and its trap or its
effect differs in the flags alone. -/
theorem onlyFlagReadersDependOnTheFlags : Obligations.OnlyFlagReadersDependOnTheFlags := by
  intro i s t f hreads hhandler hexec
  have hsame := instrFault_setFlags f hreads hhandler
  rcases exec_next_cases hexec with ⟨k, hfault, rfl⟩ | ⟨hnone, -, rfl⟩ | ⟨-, hruns, -⟩
  · refine ⟨f, (exec_of_instrFault (hsame.trans hfault)).trans ?_⟩
    rw [takeTrap_setFlags]
    rfl
  · obtain ⟨g, hg⟩ := instrEffect_setFlags f hreads hnone
    refine ⟨g, (exec_of_no_fault (hsame.trans hnone) hhandler).trans ?_⟩
    rw [hg]
    rfl
  · exact absurd hruns hhandler

end Sys2Proof.Machine

/-! ## Steps: what a step to a next state can have been

The step as a trap of the fault table, an effect or a supplied handler (R193), the invariant it keeps, and
the statements of spec/60_exceptions.md, spec/70_reset_and_hazards.md and spec/10_state.md that follow. -/

namespace Sys2Proof.Machine

/-! ### The outcomes of a step -/

/-- A step that raises none of the listed faults executes an instruction that raises none. -/
theorem exists_instr_of_stepFault_none {s : State} (h : stepFault s = none) :
    ∃ w i, s.prog[s.pc.toNat]? = some w ∧ decode w = .ok i ∧ instrFault i s = none := by
  unfold stepFault at h
  by_cases hpast : s.prog.length ≤ s.pc.toNat
  case pos =>
    rw [if_pos hpast] at h
    cases h
  case neg =>
    rw [if_neg hpast] at h
    cases hdecode : decode (s.prog.getD s.pc.toNat 0) with
    | error e =>
      rw [hdecode] at h
      cases h
    | ok i =>
      rw [hdecode] at h
      exact ⟨_, i, fetchWord_eq_getD (Nat.not_le.mp hpast), hdecode, h⟩

/-- Everything a step to a next state can have been: the trap of a listed fault, or an instruction
without a fault, which had its effect or ran a supplied handler that kept its contract. -/
theorem step_next_outcomes {s t : State} (h : step s = .next t) :
    (∃ k, stepFault s = some k ∧ t = s.takeTrap k) ∨
    (stepFault s = none ∧ ∃ w i, s.prog[s.pc.toNat]? = some w ∧ decode w = .ok i ∧
      instrFault i s = none ∧ t = instrEffect i s) ∨
    (stepFault s = none ∧ ∃ m, handlerContract s.segSize s.policy s.machine m ∧
      t = s.withMachine m) := by
  obtain ⟨hrun, -⟩ := step_next_cases h
  cases hfault : stepFault s with
  | some k =>
    have htrap := h.symm.trans (step_of_stepFault hrun hfault)
    exact .inl ⟨k, rfl, (Host.Outcome.next.inj htrap).trans (takeTrap_eq_trapTaken s k).symm⟩
  | none =>
    obtain ⟨w, i, hword, hdecode, hnone⟩ := exists_instr_of_stepFault_none hfault
    rw [step_of_decode_ok hrun hword hdecode] at h
    rcases exec_next_cases h with ⟨k, hk, -⟩ | ⟨-, -, ht⟩ | ⟨-, -, m, hcontract, ht⟩
    · cases hnone.symm.trans hk
    · exact .inr (.inl ⟨rfl, w, i, hword, hdecode, hnone, ht⟩)
    · exact .inr (.inr ⟨rfl, m, hcontract, ht⟩)

/-- A stopped machine takes no step (R198). -/
theorem step_of_stopped {s : State} (h : s.stop ≠ .running) :
    step s = .fault (.machineStopped s.stop) := by
  have hfetch : s.fetchDecode = .stopped s.stop := if_neg h
  rw [step, hfetch]

/-- A run of a stopped machine ends in it at once (R197). -/
theorem run_of_stopped {s : State} (h : s.stop ≠ .running) (fuel : Nat) : run fuel s = .stopped s := by
  cases fuel with
  | zero => exact if_neg h
  | succ fuel => rw [run, step_of_stopped h]

/-- A trap stops a running machine only where its vector entry is 0: the pc stays, and the stop reason
says which fault it was (R167). -/
theorem trapTaken_of_not_running {s : State} {k : Trap} (hrun : s.stop = .running)
    (h : (trapTaken s k).stop ≠ .running) :
    (trapTaken s k).pc = s.pc ∧
      ((k = .segFault ∧ (trapTaken s k).stop = .faultSegv ∧ s.ivt[1] = 0) ∨
        (k = .illegalOp ∧ (trapTaken s k).stop = .faultIllegal ∧ s.ivt[2] = 0)) := by
  cases k with
  | segFault =>
    by_cases hentry : s.ivt[1] = 0
    · simp [trapTaken, hentry]
    · rw [trapTaken, if_neg hentry] at h
      exact absurd hrun h
  | illegalOp =>
    by_cases hentry : s.ivt[2] = 0
    · simp [trapTaken, hentry]
    · rw [trapTaken, if_neg hentry] at h
      exact absurd hrun h

/-! ### A step and a run that end -/

/-- No instruction answers the fault of a stopped machine. -/
theorem exec_ne_fault (i : Instr) (s : State) (r : Fault) : exec i s ≠ .fault r := by
  intro h
  by_cases hruns : runsHandler i s
  · rcases exec_of_runsHandler hruns with ⟨k, -, hexec⟩ | ⟨-, m, -, hexec⟩ | ⟨-, code, hexec⟩ <;>
      cases h.symm.trans hexec
  · cases hfault : instrFault i s with
    | some k => cases h.symm.trans (exec_of_instrFault hfault)
    | none => cases h.symm.trans (exec_of_no_fault hfault hruns)

/-- Only a stopped machine has no step (R198). -/
theorem stop_of_step_fault {s : State} {r : Fault} (h : step s = .fault r) : s.stop ≠ .running := by
  intro hrun
  cases hfault : stepFault s with
  | some k => cases h.symm.trans (step_of_stepFault hrun hfault)
  | none =>
    obtain ⟨w, i, hword, hdecode, -⟩ := exists_instr_of_stepFault_none hfault
    exact exec_ne_fault i s r ((step_of_decode_ok hrun hword hdecode).symm.trans h)

/-- A run goes on from where its first step leaves the machine (R193). -/
theorem run_succ_of_step {fuel : Nat} {s u : State} (h : step s = .next u) :
    run (fuel + 1) s = run fuel u := by
  rw [run, h]

/-- A run that ends stopped starts in the machine it ends in, or takes a step and ends as the rest of
the run does. -/
theorem run_succ_stopped_cases {fuel : Nat} {s t : State} (h : run (fuel + 1) s = .stopped t) :
    (s.stop ≠ .running ∧ t = s) ∨ ∃ u, step s = .next u ∧ run fuel u = .stopped t := by
  cases hstep : step s with
  | next u => exact .inr ⟨u, rfl, (run_succ_of_step hstep).symm.trans h⟩
  | fault r =>
    rw [run, hstep] at h
    exact .inl ⟨stop_of_step_fault hstep, (RunEnd.stopped.inj h).symm⟩
  | refused r =>
    rw [run, hstep] at h
    cases h

/-- The machine in which a run has ended does not run, and the run ends there with any more fuel
(R196 to R198). -/
theorem run_add_of_stopped {fuel : Nat} {s t : State} (h : run fuel s = .stopped t) (more : Nat) :
    run (fuel + more) s = .stopped t ∧ t.stop ≠ .running := by
  induction fuel generalizing s with
  | zero =>
    rw [run] at h
    split at h
    · cases h
    next hstop =>
      obtain rfl : s = t := RunEnd.stopped.inj h
      exact ⟨run_of_stopped hstop _, hstop⟩
  | succ fuel ih =>
    rcases run_succ_stopped_cases h with ⟨hstop, rfl⟩ | ⟨u, hstep, hrest⟩
    · exact ⟨run_of_stopped hstop _, hstop⟩
    · obtain ⟨hmore, hstop⟩ := ih hrest
      refine ⟨?_, hstop⟩
      rw [Nat.succ_add, run_succ_of_step hstep, hmore]

/-! ### Settled statements -/

/-- Settles O7: fetch and decode find the instruction, and the step is its execution. -/
theorem stepRunsTheDecodedInstruction : Obligations.StepRunsTheDecodedInstruction :=
  fun _ _ _ hrun hword hdecode => step_of_decode_ok hrun hword hdecode

/-- Settles O10: a stopped machine takes no step, so a run ends where it starts. -/
theorem stoppedMachineIsFinal : Obligations.StoppedMachineIsFinal :=
  fun _ h => ⟨step_of_stopped h, run_of_stopped h⟩

/-- Settles O12: the step takes the trap of its fault, which with the vector entry 0 records the stop
reason alone, and a stopped machine takes no step. -/
theorem unhandledFaultStopsTheMachine : Obligations.UnhandledFaultStopsTheMachine := by
  intro s hrun
  refine ⟨fun hfault hunset => ⟨?segv, step_of_stopped (by simp)⟩,
    fun hfault hunset => ⟨?illegal, step_of_stopped (by simp)⟩⟩
  case segv => rw [step_of_stepFault hrun hfault, trapTaken, if_pos hunset]
  case illegal => rw [step_of_stepFault hrun hfault, trapTaken, if_pos hunset]

/-- Settles O13: without a listed fault the step is an effect, which at most halts, or a handler, which
keeps `stop`. -/
theorem noOtherFaultIsRaised : Obligations.NoOtherFaultIsRaised := by
  intro s t hrun hnone hstep
  rcases step_next_outcomes hstep with ⟨k, hfault, -⟩ | ⟨-, w, i, -, -, -, rfl⟩ | ⟨-, m, hcontract, rfl⟩
  · cases hnone.symm.trans hfault
  · rw [instrEffect_stop]
    split
    · exact .inr rfl
    · exact .inl hrun
  · obtain ⟨hstop, -⟩ := hcontract
    exact .inl (hstop.trans hrun)

/-- Settles O15: the width code is asked before the bounds, so the fault of the instruction's own is
IllegalOp for every address. -/
theorem illegalWidthWinsOverBounds : Obligations.IllegalWidthWinsOverBounds :=
  fun _ _ _ _ hwidth =>
    ⟨exec_of_ownFault_illegalOp (ownFault_load.trans (accessFault_of_illegalWidth hwidth)),
      exec_of_ownFault_illegalOp (ownFault_store.trans (accessFault_of_illegalWidth hwidth))⟩

/-- Settles O43: none of the three things a step can be changes a table or a launch parameter. -/
theorem stepKeepsTablesAndLaunchInputs : Obligations.StepKeepsTablesAndLaunchInputs := by
  intro s t hstep
  rcases step_next_outcomes hstep with ⟨k, -, rfl⟩ | ⟨-, w, i, -, -, -, rfl⟩ | ⟨-, m, hcontract, rfl⟩
  · exact takeTrap_sameTables s k
  · exact instrEffect_sameTables i s
  · exact withMachine_sameTables hcontract

/-- Settles O45: a trap stops the machine where its vector entry is 0, an effect only as interrupt 0,
and a handler keeps `stop`. -/
theorem machineStopsOnlyByHaltOrUnhandledFault :
    Obligations.MachineStopsOnlyByHaltOrUnhandledFault := by
  intro s t hrun hstep hstopped
  rcases step_next_outcomes hstep with
    ⟨k, hfault, rfl⟩ | ⟨hnone, w, i, hword, hdecode, -, rfl⟩ | ⟨-, m, hcontract, rfl⟩
  · rw [takeTrap_eq_trapTaken] at hstopped ⊢
    obtain ⟨hpc, ⟨rfl, hstop, hunset⟩ | ⟨rfl, hstop, hunset⟩⟩ := trapTaken_of_not_running hrun hstopped
    · exact ⟨hpc, .inr (.inl ⟨hstop, hfault, hunset⟩)⟩
    · exact ⟨hpc, .inr (.inr ⟨hstop, hfault, hunset⟩)⟩
  · have hstop := instrEffect_stop i s
    by_cases hi : i = .interrupt 0
    · subst hi
      exact ⟨instrEffect_pc _ s, .inl ⟨hstop, hnone, w, hword, hdecode⟩⟩
    · rw [if_neg hi] at hstop
      exact absurd (hstop.trans hrun) hstopped
  · obtain ⟨hstop, -⟩ := hcontract
    exact absurd (hstop.trans hrun) hstopped

/-- Settles O46, by induction on the fuel. -/
theorem moreFuelKeepsTheEndOfARun : Obligations.MoreFuelKeepsTheEndOfARun :=
  fun _ more _ _ h => run_add_of_stopped h more

end Sys2Proof.Machine

/-! ## The invariant

What a step to a next state keeps of the segment, the flags and the reserved registers (R20, R38, R45),
and the invariant that follows. -/

namespace Sys2Proof.Machine

section
variable {s t : State}

/-- The effect of an instruction without a fault leaves a segment of `SEG_SIZE` bytes: a store lies
inside its bounds (R45, R53). -/
theorem instrEffect_segFits {i : Instr} (hnone : instrFault i s = none)
    (hfits : s.machine.segFits s.segSize) : (instrEffect i s).machine.segFits s.segSize := by
  obtain ⟨hwf, hlt⟩ := hfits
  rcases instrEffect_seg i s with ⟨width, x, y, rfl, hseg⟩ | hseg
  · obtain ⟨-, hin⟩ := inBounds_of_instrFault_store hnone
    exact ⟨Memory.writeBytes_wf hwf _ _ _, Memory.writeBytes_lt hlt hin _⟩
  · rw [← machine_seg] at hseg
    unfold MachineState.segFits
    rw [hseg]
    exact ⟨hwf, hlt⟩

/-- A step leaves a segment of `SEG_SIZE` bytes (R45). -/
theorem step_segFits (h : step s = .next t) (hfits : s.machine.segFits s.segSize) :
    t.machine.segFits s.segSize := by
  rcases step_next_outcomes h with
    ⟨k, -, rfl⟩ | ⟨-, w, i, -, -, hnone, rfl⟩ | ⟨-, m, hcontract, rfl⟩
  · unfold MachineState.segFits
    rw [machine_seg, takeTrap_seg]
    exact hfits
  · exact instrEffect_segFits hnone hfits
  · obtain ⟨-, -, -, -, hkeepsFit⟩ := hcontract
    exact hkeepsFit hfits

/-- A step keeps flags bits 63:3 (R38, R39). -/
theorem step_flags_upper (h : step s = .next t) : t.flags >>> 3 = s.flags >>> 3 := by
  rcases step_next_outcomes h with ⟨k, -, rfl⟩ | ⟨-, w, i, -, -, -, rfl⟩ | ⟨-, m, hcontract, rfl⟩
  · rw [takeTrap_flags]
  · exact instrEffect_flags_upper i s
  · obtain ⟨-, -, hupper, -⟩ := hcontract
    exact hupper

/-- Under `strict` the effect of an instruction without a fault leaves registers 12 and 13: its
destination field passed the reserved-register check (R33). -/
theorem instrEffect_reserved {i : Instr} (hnone : instrFault i s = none) (hstrict : s.policy = .strict) :
    (instrEffect i s).gr.r12 = s.gr.r12 ∧ (instrEffect i s).gr.r13 = s.gr.r13 := by
  rcases instrEffect_gr i s with ⟨d, v, hdest, hgr⟩ | hgr
  · obtain ⟨h12, h13⟩ := rolesAllowed_of_instrFault hnone hstrict
    have hrole := mem_roleFields_of_destField hdest
    rw [hgr]
    exact writeGpr_r12_r13 (ne_of_mem_of_not_mem hrole h12) (ne_of_mem_of_not_mem hrole h13) _ _
  · rw [hgr]
    exact ⟨rfl, rfl⟩

/-- Under `strict` a step leaves registers 12 and 13 (R20, R33). -/
theorem step_reserved (h : step s = .next t) (hstrict : s.policy = .strict) :
    t.gr.r12 = s.gr.r12 ∧ t.gr.r13 = s.gr.r13 := by
  rcases step_next_outcomes h with
    ⟨k, -, rfl⟩ | ⟨-, w, i, -, -, hnone, rfl⟩ | ⟨-, m, hcontract, rfl⟩
  · rw [takeTrap_gr]
    exact ⟨rfl, rfl⟩
  · exact instrEffect_reserved hnone hstrict
  · obtain ⟨-, -, -, hreserved, -⟩ := hcontract
    exact hreserved hstrict

/-- The part of the invariant about the tables and the launch parameters holds where they are the same
(R43, R67, R154). -/
theorem tables_inv_of_sameTables (h : sameTables s t) (hsize : s.segSize ≤ 2 ^ 64)
    (hvector : s.vector 0 = 0) (hhandlers : s.handlersKeepContract) :
    t.segSize ≤ 2 ^ 64 ∧ t.vector 0 = 0 ∧ t.handlersKeepContract := by
  obtain ⟨hivt, -, hsegSize, hpolicy, hext⟩ := h
  refine ⟨hsegSize ▸ hsize, ?vector, ?handlers⟩
  case vector =>
    unfold State.vector
    rw [hivt]
    exact hvector
  case handlers =>
    unfold State.handlersKeepContract State.handler
    rw [hext, hsegSize, hpolicy]
    exact hhandlers

end

/-! ### Settled statements -/

/-- Settles O50: the tables and the launch parameters stay, so the step lemmas above give each part of
the invariant. -/
theorem everyStepKeepsInv : Obligations.EveryStepKeepsInv := by
  intro s t hinv hstep
  obtain ⟨hwf, hlt, hsize, hupper, hvector, hreserved, hhandlers⟩ := hinv
  have htables : sameTables s t := stepKeepsTablesAndLaunchInputs s t hstep
  obtain ⟨hsize', hvector', hhandlers'⟩ := tables_inv_of_sameTables htables hsize hvector hhandlers
  obtain ⟨-, -, hsegSize, hpolicy, -⟩ := htables
  obtain ⟨hwf', hlt'⟩ := step_segFits hstep ⟨hwf, hlt⟩
  refine ⟨hwf', hsegSize ▸ hlt', hsize', (step_flags_upper hstep).trans hupper, hvector',
    fun hstrict => ?reserved, hhandlers'⟩
  case reserved =>
    rw [hpolicy] at hstrict
    obtain ⟨h12, h13⟩ := step_reserved hstep hstrict
    obtain ⟨hzero12, hzero13⟩ := hreserved hstrict
    exact ⟨h12.trans hzero12, h13.trans hzero13⟩

end Sys2Proof.Machine

/-! ## Extended handlers: dispatch, launch and tables

The outcome of a handler that keeps its contract (R152), the launch that asks for the contract (R48), the
machine it creates, and a table for every handler function (R154, R155), with the statements of
spec/43_interrupt_extended.md and spec/10_state.md that follow. -/

namespace Sys2Proof.Machine

/-! ### Dispatch -/

section
variable {code : BitVec 8} {d : Nibble} {v : Imm16} {s : State} {m : MachineState}

/-- A handler's fault is raised (R152). -/
theorem exec_extended_of_answer_fault {k : Trap}
    (h : (s.handler code).answer d v s.machine = .fault k) :
    exec (.extended code d v) s = .next (trapTaken s k) := by
  rw [exec, execExtended, h, runHandler, finish_error, takeTrap_eq_trapTaken]

/-- A handler's next MachineState is taken where it keeps the contract (R152). -/
theorem exec_extended_of_answer_next (h : (s.handler code).answer d v s.machine = .next m) :
    exec (.extended code d v) s =
      if handlerContract s.segSize s.policy s.machine m then .next (s.withMachine m)
      else .refused (.handlerBreaksContract code) := by
  rw [exec, execExtended, h, runHandler]

/-- Every answer of a machine whose handlers keep their contract keeps it (R154). -/
theorem handlerContract_of_answer (hkeeps : s.handlersKeepContract)
    (h : (s.handler code).answer d v s.machine = .next m) :
    handlerContract s.segSize s.policy s.machine m :=
  Handler.keepsContract_iff.mp (ExtTable.keepsContract_of_entries hkeeps code) _ _ _ _ h

/-- With handlers that keep their contract, extended takes the next MachineState of its handler. -/
theorem exec_extended_of_keepsContract (hkeeps : s.handlersKeepContract)
    (h : (s.handler code).answer d v s.machine = .next m) :
    exec (.extended code d v) s = .next (s.withMachine m) :=
  (exec_extended_of_answer_next h).trans (if_pos (handlerContract_of_answer hkeeps h))

end

/-- The handler of a code is the one of its first entry (R155). -/
theorem handler_of_ext_eq {s : State} {before after : ExtTable} {code : BitVec 8} {h : Handler}
    (hext : s.ext = before ++ (code, h) :: after) (hbefore : ∀ e ∈ before, e.1 ≠ code) :
    s.handler code = h := by
  rw [State.handler, hext, ExtTable.handler_append _ hbefore]
  exact if_pos rfl

/-- An instruction in a machine whose handlers keep their contract gives a next state: none is refused
(R48). -/
theorem exists_exec_next {s : State} (hkeeps : s.handlersKeepContract) (i : Instr) :
    ∃ t, exec i s = .next t := by
  by_cases hruns : runsHandler i s
  · obtain ⟨code, d, v, rfl, -⟩ := hruns
    cases hanswer : (s.handler code).answer d v s.machine with
    | fault k => exact ⟨_, exec_extended_of_answer_fault hanswer⟩
    | next m => exact ⟨_, exec_extended_of_keepsContract hkeeps hanswer⟩
  · cases hfault : instrFault i s with
    | some k => exact ⟨_, exec_of_instrFault hfault⟩
    | none => exact ⟨_, exec_of_no_fault hfault hruns⟩

/-- A running machine whose handlers keep their contract takes a step to a next state (R193). -/
theorem exists_step_next {s : State} (hkeeps : s.handlersKeepContract) (hrun : s.stop = .running) :
    ∃ t, step s = .next t := by
  cases hfault : stepFault s with
  | some k => exact ⟨_, step_of_stepFault hrun hfault⟩
  | none =>
    obtain ⟨w, i, hword, hdecode, -⟩ := exists_instr_of_stepFault_none hfault
    rw [step_of_decode_ok hrun hword hdecode]
    exact exists_exec_next hkeeps i

/-! ### Launches -/

/-- A launch of an oversized segment is refused (R48, R67). -/
theorem launch_of_maxSegSize_lt {l : Launch} (h : Config.maxSegSize < l.segSize) :
    launch l = .error (.segSizeOutOfRange l.segSize) :=
  if_neg (Nat.not_le.mpr h)

/-- A launch in range creates its machine, with handlers that keep their contract, or is refused for
one that does not (R48, I20). -/
theorem launch_cases {l : Launch} (hsize : l.segSize ≤ Config.maxSegSize) :
    ((∀ code, (l.extHandlers.handler code).keepsContract l.segSize l.policy = true) ∧
      launch l = .ok l.machine) ∨
    ∃ code, (l.extHandlers.handler code).keepsContract l.segSize l.policy = false ∧
      launch l = .error (.handlerBreaksContract code) := by
  cases hbroken : l.extHandlers.broken l.segSize l.policy with
  | none =>
    have hkeeps := ExtTable.keepsContract_of_entries (ExtTable.broken_eq_none_iff.mp hbroken)
    exact .inl ⟨hkeeps, launch_of_keepsContract hsize hkeeps⟩
  | some code =>
    refine .inr ⟨code, ExtTable.not_keepsContract_of_broken hbroken, ?_⟩
    rw [launch, if_pos hsize, hbroken]

/-- The machine of a launch in range, with handlers that keep their contract, meets the invariant
(R190). -/
theorem launchMachine_inv {l : Launch} (hsize : l.segSize ≤ Config.maxSegSize)
    (hkeeps : ∀ code, (l.extHandlers.handler code).keepsContract l.segSize l.policy = true) :
    l.machine.Inv := by
  refine ⟨⟨.nil, ?nonzero⟩, ?inside, hsize, ?flags, vector_launchMachine_zero l, fun _ => ⟨rfl, rfl⟩,
    fun entry _ => hkeeps entry.1⟩
  case nonzero => exact List.forall_mem_nil _
  case inside => exact List.forall_mem_nil _
  case flags => exact BitVec.zero_ushiftRight

/-- A launch that creates a machine is in range, its handlers keep their contract, and the machine is
the one of R190. -/
theorem of_launch_eq_ok {l : Launch} {s : State} (h : launch l = .ok s) :
    l.segSize ≤ Config.maxSegSize ∧
      (∀ code, (l.extHandlers.handler code).keepsContract l.segSize l.policy = true) ∧
      s = l.machine := by
  by_cases hsize : l.segSize ≤ Config.maxSegSize
  · rcases launch_cases hsize with ⟨hkeeps, hok⟩ | ⟨code, -, herror⟩
    · exact ⟨hsize, hkeeps, Except.ok.inj (h.symm.trans hok)⟩
    · cases h.symm.trans herror
  · cases h.symm.trans (launch_of_maxSegSize_lt (Nat.not_le.mp hsize))

/-- A handler that fails the check answers some input against the contract (R154). -/
theorem Handler.exists_of_not_keepsContract {size : Nat} {policy : ReservedPolicy} {h : Handler}
    (hbreaks : h.keepsContract size policy = false) :
    ∃ d v m m', h.answer d v m = .next m' ∧ ¬ handlerContract size policy m m' := by
  by_contra hnone
  have hkeeps : h.keepsContract size policy = true :=
    Handler.keepsContract_iff.mpr fun d v m m' hanswer =>
      by_contra fun hc => hnone ⟨d, v, m, m', hanswer, hc⟩
  cases hbreaks.symm.trans hkeeps

/-- The machine of the default launch is the reset state (R190). -/
theorem defaultLaunch_machine : defaultLaunch.machine = State.reset := by
  decide

/-! ### A table for every handler function -/

/-- The registers of a register file in one tuple. -/
def GprFile.toTuple (g : GprFile) :
    Word × Word × Word × Word × Word × Word × Word × Word × Word × Word × Word :=
  (g.r1, g.r2, g.r3, g.r4, g.r5, g.r6, g.r7, g.base, g.stack, g.r12, g.r13)

theorem GprFile.toTuple_injective : Function.Injective GprFile.toTuple := by
  rintro ⟨⟩ ⟨⟩ h
  simpa [GprFile.toTuple] using h

/-- What a MachineState with a segment of `size` bytes is determined by: its registers, flags, pc,
vector entries, the bytes of its segment, and whether and why it has stopped. -/
def MachineState.toFinite (size : Nat) (m : MachineState) :
    GprFile × Word × Word × (Fin 16 → Word) × Stop × (Fin size → Byte) :=
  (m.gr, m.flags, m.pc, m.ivt.get, m.stop, fun a => m.seg.read a)

/-- No byte past the end of a segment is listed (R45). -/
theorem MachineState.read_of_segFits {size : Nat} {m : MachineState} (h : m.segFits size) {a : Nat}
    (ha : size ≤ a) : m.seg.read a = Memory.unlisted :=
  Memory.read_of_not_mem fun c hc => Nat.ne_of_lt (Nat.lt_of_lt_of_le (h.2 c hc) ha)

theorem MachineState.toFinite_injOn (size : Nat) :
    Set.InjOn (MachineState.toFinite size) {m | m.segFits size} := by
  intro m hm m' hm' h
  simp only [MachineState.toFinite, Prod.mk.injEq] at h
  obtain ⟨hgr, hflags, hpc, hivt, hstop, hseg⟩ := h
  have hread : ∀ a, m.seg.read a = m'.seg.read a := fun a => by
    by_cases ha : a < size
    · exact congrFun hseg ⟨a, ha⟩
    · rw [read_of_segFits hm (Nat.not_lt.mp ha), read_of_segFits hm' (Nat.not_lt.mp ha)]
  have hseg : m.seg = m'.seg := Memory.eq_of_read_eq hm.1 hm'.1 hread
  have hivt : m.ivt = m'.ivt := Vector.ext fun n hn => congrFun hivt ⟨n, hn⟩
  cases m
  cases m'
  simp_all

/-- The machine stops for one of finitely many reasons (R40). -/
theorem finite_stop : Finite Stop :=
  Fintype.finite ⟨{.running, .halt, .faultSegv, .faultIllegal}, fun s => by cases s <;> decide⟩

/-- The MachineStates of a launch are finitely many (R47, R67). -/
theorem finite_segFits (size : Nat) : {m : MachineState | m.segFits size}.Finite := by
  have hgpr : Finite GprFile := Finite.of_injective _ GprFile.toTuple_injective
  have hstop : Finite Stop := finite_stop
  exact Set.Finite.of_finite_image (Set.toFinite _) (MachineState.toFinite_injOn size)

/-- Some list holds exactly the inputs of a launch's handlers (R154). -/
theorem exists_handlerInputs (size : Nat) :
    ∃ inputs : List (Nibble × Imm16 × MachineState),
      ∀ d v m, (d, v, m) ∈ inputs ↔ m.segFits size := by
  have hfinite : {i : Nibble × Imm16 × MachineState | i.2.2.segFits size}.Finite := by
    refine (Set.finite_univ.prod (Set.finite_univ.prod (finite_segFits size))).subset ?_
    rintro ⟨d, v, m⟩ hm
    exact ⟨Set.mem_univ d, Set.mem_univ v, hm⟩
  exact ⟨hfinite.toFinset.toList, fun d v m => by simp⟩

/-- Off the inputs of its list, the table of a function answers as `h_nop` (R153). -/
theorem Handler.answer_ofFun_of_not_mem (f : Nibble → Imm16 → MachineState → HandlerOutcome)
    {inputs : List (Nibble × Imm16 × MachineState)} {d : Nibble} {v : Imm16} {m : MachineState}
    (h : (d, v, m) ∉ inputs) : (Handler.ofFun f inputs).answer d v m = nopOutcome m := by
  refine (Handler.answer_cases _ d v m).resolve_left ?_
  rintro ⟨r, hr, rfl, rfl, rfl⟩
  obtain ⟨i, hi, rfl⟩ := List.mem_map.mp hr
  exact h hi

/-- The table of a function keeps the contract where the function does on the table's inputs: elsewhere
it answers as `h_nop`. -/
theorem Handler.ofFun_keepsContract {f : Nibble → Imm16 → MachineState → HandlerOutcome}
    {inputs : List (Nibble × Imm16 × MachineState)} {size : Nat} {policy : ReservedPolicy}
    (h : ∀ d v m m', (d, v, m) ∈ inputs → f d v m = .next m' → handlerContract size policy m m') :
    (Handler.ofFun f inputs).keepsContract size policy = true := by
  refine Handler.keepsContract_iff.mpr fun d v m m' hanswer => ?_
  by_cases hin : (d, v, m) ∈ inputs
  · rw [Handler.answer_ofFun f hin] at hanswer
    exact h d v m m' hin hanswer
  · rw [Handler.answer_ofFun_of_not_mem f hin] at hanswer
    cases hanswer
    exact handlerContract_nop size policy m

/-! ### Settled statements -/

/-- Settles O51: the inputs are finitely many, so the function's values on them are a table. -/
theorem everyHandlerFunctionHasATable : Obligations.EveryHandlerFunctionHasATable := by
  intro size policy f
  obtain ⟨inputs, hinputs⟩ := exists_handlerInputs size
  refine ⟨Handler.ofFun f inputs, fun d v m hm => ?answers, fun hkeeps => ?keeps⟩
  case answers => exact Handler.answer_ofFun f ((hinputs d v m).mpr hm)
  case keeps =>
    exact Handler.ofFun_keepsContract fun d v m m' hin =>
      hkeeps d v m m' ((hinputs d v m).mp hin)

/-- Settles O52: the check of a launch is the contract on every input, and the code of a refusal is one
whose handler fails it. -/
theorem launchRefusesExactlyHandlersThatBreakR154 :
    Obligations.LaunchRefusesExactlyHandlersThatBreakR154 := by
  intro l hsize
  refine ⟨⟨?created, ?keeps⟩, ?either⟩
  case created =>
    rintro ⟨s, hok⟩ code
    obtain ⟨-, hkeeps, -⟩ := of_launch_eq_ok hok
    exact Handler.keepsContract_iff.mp (hkeeps code)
  case keeps =>
    intro hkeeps
    exact ⟨l.machine, launch_of_keepsContract hsize fun code =>
      Handler.keepsContract_iff.mpr (hkeeps code)⟩
  case either =>
    rcases launch_cases hsize with ⟨-, hok⟩ | ⟨code, hbreaks, herror⟩
    · exact .inl ⟨_, hok⟩
    · obtain ⟨d, v, m, m', hanswer, hcontract⟩ := Handler.exists_of_not_keepsContract hbreaks
      exact .inr ⟨code, d, v, m, m', herror, hanswer, hcontract⟩

/-- Settles O53: a launch that is not refused creates the machine of R190, and in a machine with the
invariant no handler is refused. -/
theorem launchedMachineAlwaysSteps : Obligations.LaunchedMachineAlwaysSteps := by
  constructor
  · intro l s hok
    obtain ⟨hsize, hkeeps, rfl⟩ := of_launch_eq_ok hok
    exact launchMachine_inv hsize hkeeps
  · intro s hinv hrun
    obtain ⟨-, -, -, -, -, -, hkeeps⟩ := hinv
    exact exists_step_next hkeeps hrun

/-- Settles O38, by what the handler answers. -/
theorem registeredExtendedRunsItsHandler : Obligations.RegisteredExtendedRunsItsHandler := by
  intro code d v s taken answer
  have hanswer : (s.handler code).answer d v s.machine = answer := rfl
  clear_value answer
  cases answer with
  | fault k =>
    have hexec := exec_extended_of_answer_fault hanswer
    exact ⟨hexec, fun _ => hexec⟩
  | next m =>
    exact ⟨exec_extended_of_answer_next hanswer, fun hkeeps =>
      exec_extended_of_keepsContract hkeeps hanswer⟩

/-- Settles O54: the look-up passes over other codes and other inputs, and extended has the outcome of
the handler it finds. -/
theorem registeredHandlerIsTheOneDispatched : Obligations.RegisteredHandlerIsTheOneDispatched := by
  refine ⟨fun ext code h => if_pos rfl, fun ext c code h hne => if_neg hne,
    fun h r => if_pos ⟨rfl, rfl, rfl⟩, fun h r d v m hne => if_neg hne, ?dispatch⟩
  case dispatch =>
    intro before after code h d v s hext hbefore hkeeps
    obtain rfl := handler_of_ext_eq hext hbefore
    generalize hanswer : (s.handler code).answer d v
      { gr := s.gr, flags := s.flags, pc := s.pc, seg := s.seg, ivt := s.ivt, stop := s.stop } = answer
    cases answer with
    | fault k => exact exec_extended_of_answer_fault hanswer
    | next m => exact exec_extended_of_keepsContract hkeeps hanswer

/-- Settles O48: the size is over the largest one a launch may ask for. -/
theorem oversizedLaunchIsRefused : Obligations.OversizedLaunchIsRefused :=
  fun _ h => launch_of_maxSegSize_lt h

/-- Settles O49: the default launch is in range and has no handlers, so it creates its machine, which is
the reset state. -/
theorem resetIsTheDefaultLaunchAndMeetsInv : Obligations.ResetIsTheDefaultLaunchAndMeetsInv := by
  have hsize : defaultLaunch.segSize ≤ Config.maxSegSize := by decide
  have hkeeps : ∀ code, (defaultLaunch.extHandlers.handler code).keepsContract defaultLaunch.segSize
      defaultLaunch.policy = true := fun _ => rfl
  rw [Obligations.ResetIsTheDefaultLaunchAndMeetsInv, ← defaultLaunch_machine]
  exact ⟨launch_of_keepsContract hsize hkeeps, launchMachine_inv hsize hkeeps⟩

end Sys2Proof.Machine

/-! ## Two instructions and two accesses in a row

An add undone by a sub (R111), a compare decided by a branch (R78, R130), a narrow read of a wide write
(R56), and the statements that follow. -/

namespace Sys2Proof.Machine

/-! ### Add, then sub -/

/-- Two writes to one destination, the second of its first value, restore every register (R32). -/
theorem sameRegs_of_writesReg {s t u : State} {d : Reg} {v : Word} (hwrite : writesReg s t d v)
    (hback : writesReg t u d (s.readReg d)) : sameRegs s u := by
  intro r hflags hpc
  rw [hback r hflags hpc]
  split
  next hrd => rw [hrd.1]
  next hrd => rw [hwrite r hflags hpc, if_neg hrd]

/-- After a write of a sum to one of its operands, the register less the other operand is its first
value (R111). -/
theorem sub_of_writesReg_add {s t : State} {d y : Reg} (hwrite : writesReg s t d (s.readReg d + s.readReg y))
    (hd : isStorage d = true) (hyd : y ≠ d) (hflags : y ≠ .flags) (hpc : y ≠ .pc) :
    t.readReg d - t.readReg y = s.readReg d := by
  have hdflags : d ≠ .flags := by rintro rfl; cases hd
  have hdpc : d ≠ .pc := by rintro rfl; cases hd
  rw [hwrite d hdflags hdpc, if_pos ⟨rfl, hd⟩, hwrite y hflags hpc, if_neg fun h => hyd h.1,
    BitVec.add_sub_cancel]

/-! ### Compare, then branch -/

/-- An immediate branch with a defined condition completes, and its pc is decided by the condition
(R136). -/
theorem exec_branch_imm {c : Nibble} {cond : Cond} (hcond : condOf c = some cond) (off : Imm16)
    (s : State) :
    exec (.branch c (.imm off)) s =
      .next (s.setPc (if condHolds cond s.flags then s.pc + off.signExtend 64 else s.pc + 1)) := by
  have hc : ¬ 8 ≤ c.toNat := fun h => by
    rw [(condOf_eq_none_iff c).mpr h] at hcond
    cases hcond
  have hroles : rolesAllowed s (roleFields (.branch c (.imm off))) :=
    fun _ => ⟨List.not_mem_nil, List.not_mem_nil⟩
  have hfault : instrFault (.branch c (.imm off)) s = none :=
    (instrFault_eq_ownFault hroles).trans (if_neg hc)
  rw [exec_of_no_fault hfault not_runsHandler_branch, instrEffect, ← branch_pcAfter hcond]
  split <;> rfl

/-- The branch conditions on Z and N with the relation of a compare's operands that each stands for
(R78). -/
def signedOrderConds (l r : Word) : List (Nibble × Bool) :=
  [(0x1, decide (l.toInt = r.toInt)), (0x2, decide (l.toInt ≠ r.toInt)),
   (0x5, decide (l.toInt < r.toInt)), (0x6, decide (r.toInt ≤ l.toInt)),
   (0x7, decide (r.toInt < l.toInt))]

/-- On the flags of a compare, each of the five conditions holds exactly where its relation of the
operands does (R78, R130). -/
theorem condHolds_of_compare {f l r : Word} (hZ : flagZ f = decide (l.toInt = r.toInt))
    (hN : flagN f = decide (l.toInt < r.toInt)) {c : Nibble} {taken : Bool}
    (h : (c, taken) ∈ signedOrderConds l r) :
    ∃ cond, condOf c = some cond ∧ condHolds cond f = taken := by
  simp only [signedOrderConds, List.mem_cons, List.not_mem_nil, or_false, Prod.mk.injEq] at h
  rcases h with ⟨rfl, rfl⟩ | ⟨rfl, rfl⟩ | ⟨rfl, rfl⟩ | ⟨rfl, rfl⟩ | ⟨rfl, rfl⟩
  · exact ⟨.z, rfl, hZ⟩
  · exact ⟨.nz, rfl, by rw [condHolds, hZ, decide_not]⟩
  · exact ⟨.n, rfl, hN⟩
  · exact ⟨.nn, rfl, by rw [condHolds, hN, ← decide_not, decide_eq_decide, not_lt]⟩
  · refine ⟨.gt, rfl, ?_⟩
    rw [condHolds, hZ, hN, ← decide_not, ← decide_not, ← Bool.decide_and, decide_eq_decide]
    omega

/-! ### Settled statements -/

/-- Settles O23: the add shows its sum in `rd` and keeps `ry`, so the sub writes the first value of
`rd` back. -/
theorem addThenSubRestores : Obligations.AddThenSubRestores := by
  intro d y s hyd hflags hpc hroles
  have hfields : rolesAllowed s [d, d, y] :=
    rolesAllowed_cons.mpr ⟨(rolesAllowed_cons.mp hroles).1, hroles⟩
  obtain ⟨-, haddRule⟩ := addFollowsR100
  obtain ⟨t, hadd, hwrite, -, -, htpc, -, ⟨-, -, -, hpolicy, -⟩, -⟩ := haddRule d d (.reg y) s hfields
  have hfields' : rolesAllowed t [d, d, y] := fun hstrict => hfields (hpolicy.symm.trans hstrict)
  obtain ⟨-, hsubRule⟩ := subFollowsR101
  obtain ⟨u, hsub, hback, -, -, hupc, -⟩ := hsubRule d d (.reg y) t hfields'
  rw [← BitVec.add_def] at hwrite
  rw [← sub_eq_ofInt] at hback
  refine ⟨u, ?run, sameRegs_of_writesReg hwrite (writesReg_congr hback fun hd => ?restored), ?pc⟩
  case run => rw [execAll_cons_of_next hadd, execAll_cons_of_next hsub, execAll]
  case restored => exact sub_of_writesReg_add hwrite hd hyd hflags hpc
  case pc =>
    rw [hupc, htpc, BitVec.add_assoc]
    rfl

/-- Settles O30: the compare leaves Z and N as the signed order of its operands, and the branch looks at
nothing else. -/
theorem compareThenBranchDecidesSignedOrder : Obligations.CompareThenBranchDecidesSignedOrder := by
  intro d x y off s hroles c taken hmem
  obtain ⟨-, hcompareRule⟩ := compareFollowsR130
  obtain ⟨t, hcompare, -, hZ, hN, -, hpc, -⟩ := hcompareRule d x y s hroles
  have hflagZ : flagZ t.flags = decide ((s.readReg x).toInt = (s.readOperand y).toInt) := by
    rw [Bool.eq_iff_iff, decide_eq_true_iff, BitVec.toInt_inj]
    exact hZ
  have hflagN : flagN t.flags = decide ((s.readReg x).toInt < (s.readOperand y).toInt) := by
    rw [Bool.eq_iff_iff, decide_eq_true_iff]
    exact hN
  obtain ⟨cond, hcond, htaken⟩ := condHolds_of_compare hflagZ hflagN hmem
  have hbranch := exec_branch_imm hcond off t
  rw [htaken, hpc, BitVec.add_assoc s.pc 1 1] at hbranch
  refine ⟨_, ?run, setPc_pc t _⟩
  case run => rw [execAll_cons_of_next hcompare, execAll_cons_of_next hbranch, execAll]; rfl

/-- Settles O25, bit by bit. -/
theorem mixedWidthAccessSeesBytes : Obligations.MixedWidthAccessSeesBytes := by
  intro m a v
  apply BitVec.eq_of_getLsbD_eq
  intro i hi
  rw [Memory.getLsbD_readBytes _ _ _ _ (by decide),
    Memory.getLsbD_read_writeBytes _ _ _ _ _ _ (Nat.mod_lt i (by decide)), BitVec.getLsbD_setWidth,
    BitVec.getLsbD_extractLsb']
  by_cases hread : i < 16
  · have hbit : 8 * (a + 1 + i / 8 - a) + i % 8 = 8 + i := by omega
    rw [if_pos (by omega), hbit]
    simp [hread, hi]
  · simp [hread]

end Sys2Proof.Machine
